-- ==== Sys2Proof/Word.lean ====
section
/-! DEFINITION. The word types of the block (00_scope.md R7, R10; 30_encoding.md R71). Every value is unsigned. -/

namespace Sys2Proof

/-- A register, a timer, a byte of memory: 8 bits (10_state.md R20). -/
abbrev Byte := BitVec 8

/-- An instruction word, PC, I, a stack slot: 16 bits (10_state.md R20, 30_encoding.md R70). -/
abbrev Word := BitVec 16

/-- A register field X or Y, or the count N: 4 bits (30_encoding.md R71). -/
abbrev Nibble := BitVec 4

/-- The address field NNN: 12 bits (30_encoding.md R71). -/
abbrev Addr12 := BitVec 12

end Sys2Proof
end

