-- ==== Sys2Proof/Machine/Flags.lean ====
section
/-! DEFINITION. Every value written to VF as a flag (10_state.md R25), and `bool01` (00_scope.md R10). No other flag exists. -/

namespace Sys2Proof.Machine

/-- `bool01(b)`: 1 when `b` is true and 0 when it is false (00_scope.md R10). -/
def bool01 (b : Bool) : Byte := if b then 1 else 0

/-- The flag of 8XY5 and 8XY7 for `a - b`: 1 when `a > b` strictly, unsigned (42_alu.md R140, R142). -/
def greaterFlag (a b : Byte) : Byte := bool01 (decide (b.toNat < a.toNat))

/-- The flag of 8XY6: the bit shifted out, `a AND 0x01` (42_alu.md R141). -/
def shrFlag (a : Byte) : Byte := a &&& 0x01

/-- The flag of 8XYE: `a AND 0x80`, 0x00 or 0x80, not normalised (42_alu.md R143). -/
def shlFlag (a : Byte) : Byte := a &&& 0x80

/-- The flag of DXYN: 1 for a collision, else 0 (44_display.md R184). -/
def collisionFlag (collided : Bool) : Byte := bool01 collided

end Sys2Proof.Machine
end

