-- ==== Sys2Proof/Config.lean ====
section
/-! DEFINITION. What is fixed for one block, and the one free value of the model.
The fixed sizes are those of 00_scope.md R7; FONT is the block's parameter (R8); RND is its free input (10_state.md R37). -/

namespace Sys2Proof

/-- FONT_LEN, the length of the font table in bytes (00_scope.md R7). -/
abbrev Config.fontLen : Nat := 80

/-- ADDR_MAX, the highest legal byte address (00_scope.md R7). -/
abbrev Config.addrMax : Nat := 0xFFF

/-- PROG_BASE, where a ROM loads and execution starts (00_scope.md R7). -/
abbrev Config.progBase : Nat := 0x200

/-- The type of the parameter FONT: 80 bytes (00_scope.md R8). -/
abbrev Config.Font := Vector Byte Config.fontLen

/-- PRESUMED, unsafe (log entry 3). The default of the parameter FONT, the conventional font of
93_implementation_defined.md G1, which the spec supplies from general knowledge. `State.reset` is built with it; every
operation reads the font from the state, so a statement about all states holds for every font. -/
def Config.defaultFont : Config.Font := #v[
  0xF0, 0x90, 0x90, 0x90, 0xF0,  0x20, 0x60, 0x20, 0x20, 0x70,
  0xF0, 0x10, 0xF0, 0x80, 0xF0,  0xF0, 0x10, 0xF0, 0x10, 0xF0,
  0x90, 0x90, 0xF0, 0x10, 0x10,  0xF0, 0x80, 0xF0, 0x10, 0xF0,
  0xF0, 0x80, 0xF0, 0x90, 0xF0,  0xF0, 0x10, 0x20, 0x40, 0x40,
  0xF0, 0x90, 0xF0, 0x90, 0xF0,  0xF0, 0x90, 0xF0, 0x10, 0xF0,
  0xF0, 0x90, 0xF0, 0x90, 0x90,  0xE0, 0x90, 0xE0, 0x90, 0xE0,
  0xF0, 0x80, 0x80, 0x80, 0xF0,  0xE0, 0x90, 0x90, 0x90, 0xE0,
  0xF0, 0x80, 0xF0, 0x80, 0xF0,  0xF0, 0x80, 0xF0, 0x80, 0x80]

/-- DESIGN CHOICE, safe (log entry 2). The free value of the model: the n-th byte the host supplies on RND
(10_state.md R37). It has no body, so nothing can be proved of it beyond its being a byte. -/
opaque Config.rndSample : Nat → Byte

end Sys2Proof
end

