-- ==== Sys2Proof/Machine/State.lean ====
section
/-! DEFINITION. The state of the block (10_state.md R20), the outcomes' reasons, and the state after reset (R41). -/

namespace Sys2Proof.Machine

/-- `RUN`, the state of the execution loop (10_state.md R38). The reserved value 3 is unreachable and has no name here
(log entry 6). -/
inductive RunState where
  /-- 0: a Cycle may execute. -/
  | running
  /-- 1: the halt sentinel was fetched, and no further cycle executes. -/
  | halted
  /-- 2: an operation raised a fault, and no further cycle executes. -/
  | faulted
  deriving DecidableEq, Repr

/-- `MEM`: the bytes that differ from the reset contents, addresses strictly rising (log entry 4; `Memory.wf` in
Machine/Ops.lean). -/
abbrev Memory := List Host.Cell

/-- The state of the block. The first thirteen fields are the elements of 10_state.md R20; the last three are the model's
own, for what a step reads and R20 does not list: the parameter FONT and the inputs KEYS and RND. -/
structure State where
  /-- `V[0..15]`, the general registers; `V[15]` is VF (10_state.md R21, R25). -/
  v : Vector Byte 16
  /-- `I`, the index register (10_state.md R26). -/
  i : Word
  /-- `PC`, the program counter (10_state.md R27). -/
  pc : Word
  /-- `STK[0..15]`, the call-stack slots (10_state.md R29). -/
  stk : Vector Word 16
  /-- `SP`, the stack depth, 0 to 16 (10_state.md R29, R31; log entry 6). -/
  sp : Fin 17
  /-- `MEM` (10_state.md R32). -/
  mem : Memory
  /-- `FB`, 32 rows; bit x of row y is the pixel `FB[x][y]` (10_state.md R33; log entry 10). -/
  fb : Vector (BitVec 64) 32
  /-- `DT`, the delay timer (10_state.md R34). -/
  dt : Byte
  /-- `ST`, the sound timer (10_state.md R35). -/
  st : Byte
  /-- `BUZ`, the buzzer-enable output (10_state.md R35). -/
  buz : Bool
  /-- `RUN` (10_state.md R38). -/
  run : RunState
  /-- `FCAUSE`, the fault cause code (10_state.md R38). -/
  fcause : BitVec 4
  /-- `FINFO`, the fault information (10_state.md R38). -/
  finfo : BitVec 32
  /-- The parameter FONT (00_scope.md R8); no operation writes it (log entry 3). -/
  font : Config.Font
  /-- The input `KEYS[15:0]` as the host drives it now (10_state.md R36); no step writes it (log entry 1). -/
  keys : BitVec 16
  /-- How many samples of RND were taken; the next is `Config.rndSample rndCount` (10_state.md R37; log entry 2). -/
  rndCount : Nat
  deriving DecidableEq, Repr

/-- The faults of the host's interface: none. What the spec calls a fault is an effect it describes (60_exceptions.md R222:
RUN, FCAUSE and FINFO are written and the block stops), so it is a next state (log entry 5), which is safe: nothing is lost
with the state. -/
inductive Fault where
  deriving DecidableEq, Repr

/-- The refusals of the host's interface. -/
inductive Refusal where
  /-- An instruction with no meaning yet, by its mnemonic: only an arm of `exec` answers it, and no arm does now. Safe. -/
  | notModelled (mnemonic : String)
  deriving DecidableEq, Repr

/-- The state after `Reset` for a block with the font `font` (10_state.md R41, 70_reset_and_hazards.md R250). Memory lists
nothing: every byte reads as its reset contents. `keys` and `rndCount` are inputs that Reset does not give a value:
DESIGN CHOICE, no key pressed and no sample taken (log entries 1 and 2). -/
def State.resetWith (font : Config.Font) : State where
  v := Vector.replicate 16 0
  i := 0
  pc := 0x200
  stk := Vector.replicate 16 0
  sp := 0
  mem := []
  fb := Vector.replicate 32 0
  dt := 0
  st := 0
  buz := false
  run := .running
  fcause := 0
  finfo := 0
  font := font
  keys := 0
  rndCount := 0

/-- The machine right after reset, with the default of the parameter FONT (log entry 3). -/
def State.reset : State := State.resetWith Config.defaultFont

end Sys2Proof.Machine
end

