-- ==== Sys2Proof/Machine/Operands.lean ====
section
/-! DEFINITION. Operand forms: register fields, immediates widened with zeros, data addresses, key scan, decimal digits. -/

namespace Sys2Proof.Machine

/-- The register field of VF (10_state.md R25). -/
abbrev vf : Nibble := 0xF

/-- `V[x]` for a register field (00_scope.md R11; 30_encoding.md R72). A 4-bit field is always a legal index
(10_state.md R23). -/
def State.reg (s : State) (x : Nibble) : Byte := s.v[x.toNat]'x.isLt

/-- `NNN` widened with zero bits to 16 (30_encoding.md R72). -/
def wideAddr (nnn : Addr12) : Word := nnn.setWidth 16

/-- The target of BNNN, `trunc16(zext_16(NNN) + V[0])` (41_control_flow.md R113). -/
def offsetTarget (nnn : Addr12) (v0 : Byte) : Word := wideAddr nnn + v0.setWidth 16

/-- The address of the k-th byte of a data access, `I + k` on naturals with no wrap (20_memory.md R51,
43_index_memory.md R161). -/
def dataAddr (s : State) (k : Nat) : Nat := s.i.toNat + k

/-- The font glyph address of FX29, `V[X] * 5` in 16 bits (43_index_memory.md R163). -/
def glyphAddr (b : Byte) : Word := b.setWidth 16 * 5

/-- The hundreds digit `v div 100` (43_index_memory.md R164). -/
def hundreds (b : Byte) : Byte := BitVec.ofNat 8 (b.toNat / 100)

/-- The tens digit `(v div 10) mod 10` (43_index_memory.md R164). -/
def tens (b : Byte) : Byte := BitVec.ofNat 8 (b.toNat / 10 % 10)

/-- The units digit `v mod 10` (43_index_memory.md R164). -/
def units (b : Byte) : Byte := BitVec.ofNat 8 (b.toNat % 10)

/-- The three bytes FX33 stores, in address order (43_index_memory.md R165). -/
def bcdBytes (b : Byte) : List Byte := [hundreds b, tens b, units b]

/-- `KEYS[k] = 1`, for `k` in 0 to 15 (10_state.md R36). -/
def State.pressed (s : State) (k : Nat) : Bool := s.keys.getLsbD k

/-- The lowest pressed index, if any key is pressed (45_timers_keys.md R207). -/
def State.lowestPressed (s : State) : Option Nat := (List.range 16).find? s.pressed

/-- The pixel `FB[x][y]`; outside the framebuffer there is none, and `false` is answered (10_state.md R33). -/
def State.pixel (s : State) (x y : Nat) : Bool := if h : y < 32 then s.fb[y].getLsbD x else false

/-- The bit of a sprite row in column `c` of 0 to 7, most significant bit first (44_display.md R183). -/
def spriteBit (row : Byte) (c : Nat) : Bool := row.getLsbD (7 - c)

end Sys2Proof.Machine
end

