-- ==== Sys2Proof/Machine/Ops.lean ====
section
/-! DEFINITION. The named operations over registers, memory, stack, keys and framebuffer, and taking a fault: the one place
each is defined. There is no return from a fault (60_exceptions.md R224). -/

namespace Sys2Proof.Machine

/-! ## Memory as data -/

/-- What a byte that nothing has written reads as: the reset contents, FONT at 0x000 to 0x04F and 0 above
(10_state.md R41, 20_memory.md R56). -/
def Memory.unlisted (font : Config.Font) (a : Nat) : Byte :=
  if h : a < Config.fontLen then font[a] else 0

/-- The listed byte at an address, if there is one. -/
def Memory.lookup : Memory → Nat → Option Byte
  | [], _ => none
  | c :: m, a => if c.1 = a then some c.2 else Memory.lookup m a

/-- The byte at an address: the value of the latest write, or the reset contents (20_memory.md R55, R59). -/
def Memory.read (font : Config.Font) (m : Memory) (a : Nat) : Byte :=
  (Memory.lookup m a).getD (Memory.unlisted font a)

/-- The list without the entry of one address. -/
def Memory.erase (m : Memory) (a : Nat) : Memory := m.filter (fun c => c.1 ≠ a)

/-- Insert an entry before the first greater address. -/
def Memory.insert : Memory → Nat → Byte → Memory
  | [], a, b => [(a, b)]
  | c :: m, a, b => if c.1 < a then c :: Memory.insert m a b else (a, b) :: c :: m

/-- Write one byte; writing the reset contents removes the entry, so that equal memories are equal lists. -/
def Memory.write (font : Config.Font) (m : Memory) (a : Nat) (b : Byte) : Memory :=
  if b = Memory.unlisted font a then Memory.erase m a else Memory.insert (Memory.erase m a) a b

/-- The canonical form of memory: addresses strictly rising, within MEM_SIZE (00_scope.md R7), and no entry equal to what
an unlisted address reads as. -/
abbrev Memory.wf (font : Config.Font) (m : Memory) : Prop :=
  (m.map Prod.fst).Pairwise (· < ·) ∧
    ∀ c ∈ m, c.1 ≤ Config.addrMax ∧ c.2 ≠ Memory.unlisted font c.1

/-! ## Reading and writing state elements -/

/-- `MEM[a]` as it stands, for the legal addresses 0x000 to 0xFFF (10_state.md R32). -/
def State.byteAt (s : State) (a : Nat) : Byte := Memory.read s.font s.mem a

/-- `MEM[a] <- b`. -/
def State.setByte (s : State) (a : Nat) (b : Byte) : State := { s with mem := Memory.write s.font s.mem a b }

/-- `V[x] <- b` (10_state.md R22, R24). -/
def State.setReg (s : State) (x : Nibble) (b : Byte) : State := { s with v := s.v.set x.toNat b x.isLt }

/-- `PC <- w`. -/
def State.setPc (s : State) (w : Word) : State := { s with pc := w }

/-- `I <- w`. -/
def State.setI (s : State) (w : Word) : State := { s with i := w }

/-- `DT <- b`. -/
def State.setDt (s : State) (b : Byte) : State := { s with dt := b }

/-- `ST <- b`. -/
def State.setSt (s : State) (b : Byte) : State := { s with st := b }

/-- `RUN <- r`. -/
def State.setRun (s : State) (r : RunState) : State := { s with run := r }

/-- `FB[x][y] <- FB[x][y] XOR 1`, for a pixel inside the framebuffer (44_display.md R181). -/
def State.flipPixel (s : State) (x y : Nat) : State :=
  if h : y < 32 then { s with fb := s.fb.set y (s.fb[y] ^^^ BitVec.twoPow 64 x) h } else s

/-- Every pixel clear (44_display.md R185). -/
def State.clearDisplay (s : State) : State := { s with fb := Vector.replicate 32 0 }

/-- One sample of RND is taken (10_state.md R37). -/
def State.countSample (s : State) : State := { s with rndCount := s.rndCount + 1 }

/-! ## Taking a fault (00_scope.md R13, 60_exceptions.md R220, R222) -/

/-- The fault causes (60_exceptions.md R220). -/
inductive Cause where
  | unknownOpcode
  | memOutOfRange
  | indexOverflow
  | bulkStoreOverflow
  | stackOverflow
  | stackUnderflow
  | keyIndexOutOfRange
  | pixelOutOfBounds
  | regIndexOutOfRange
  | invalidPixelValue
  deriving DecidableEq, Repr

/-- `code(E)` (60_exceptions.md R220): 1 to 10; 11 to 15 are never raised. -/
def Cause.code : Cause → BitVec 4
  | .unknownOpcode => 1
  | .memOutOfRange => 2
  | .indexOverflow => 3
  | .bulkStoreOverflow => 4
  | .stackOverflow => 5
  | .stackUnderflow => 6
  | .keyIndexOutOfRange => 7
  | .pixelOutOfBounds => 8
  | .regIndexOutOfRange => 9
  | .invalidPixelValue => 10

/-- Fault entry, the action of `raise E(info)`: RUN, FCAUSE and FINFO are written and nothing else (60_exceptions.md R222).
Ending the operation is `Exec.raised`'s part. -/
def State.enterFault (s : State) (e : Cause) (info : Nat) : State :=
  { s with run := .faulted, fcause := e.code, finfo := BitVec.ofNat 32 info }

/-- How a part of an operation ends: with a value and the state so far, or by a raise, with the state after fault entry.
Writes made before the raise are in that state (00_scope.md R13). -/
inductive Exec (α : Type) where
  | done (a : α) (s : State)
  | raised (s : State)

/-- `raise E(info)`. -/
def raise {α : Type} (e : Cause) (info : Nat) (s : State) : Exec α := .raised (s.enterFault e info)

/-- Statements in sequence: nothing after a raise runs (00_scope.md R13, R14). -/
def Exec.bind {α β : Type} (r : Exec α) (f : α → State → Exec β) : Exec β :=
  match r with
  | .done a s => f a s
  | .raised s => .raised s

/-- The end of an operation for the host's interface: both ways of ending are a next state (log entry 5). -/
def Exec.outcome {α : Type} : Exec α → Host.Outcome State Fault Refusal
  | .done _ s => .next s
  | .raised s => .next s

/-! ## Checked accesses -/

/-- `MemRead(a, 1)` (00_scope.md R12). -/
def memRead (a : Nat) (s : State) : Exec Byte :=
  if a ≤ Config.addrMax then .done (s.byteAt a) s else raise .memOutOfRange a s

/-- `MemWrite(a, 1, b)` (00_scope.md R12). -/
def memWrite (a : Nat) (b : Byte) (s : State) : Exec Unit :=
  if a ≤ Config.addrMax then .done () (s.setByte a b) else raise .memOutOfRange a s

/-- A read of `V[k]` at an index of any size (10_state.md R23). -/
def regRead (k : Nat) (s : State) : Exec Byte :=
  if k < 16 then .done (s.reg (BitVec.ofNat 4 k)) s else raise .regIndexOutOfRange k s

/-- A write of `V[k]` at an index of any size (10_state.md R23). -/
def regWrite (k : Nat) (b : Byte) (s : State) : Exec Unit :=
  if k < 16 then .done () (s.setReg (BitVec.ofNat 4 k) b) else raise .regIndexOutOfRange k s

/-- `KeyRead(k)` (45_timers_keys.md R204). -/
def keyRead (k : Nat) (s : State) : Exec Bool :=
  if k ≤ 15 then .done (s.pressed k) s else raise .keyIndexOutOfRange k s

/-- `Push(w)` (10_state.md R29); `info` is the FINFO of a StackOverflow (60_exceptions.md R220). -/
def push (w : Word) (info : Nat) (s : State) : Exec Unit :=
  if h : s.sp.val < 16 then
    .done () { s with stk := s.stk.set s.sp.val w h, sp := ⟨s.sp.val + 1, Nat.succ_lt_succ h⟩ }
  else raise .stackOverflow info s

/-- `Pop()` (10_state.md R29, R30: the slot keeps its value); FINFO of a StackUnderflow is 0xEE (60_exceptions.md R220). -/
def pop (s : State) : Exec Word :=
  if h : 0 < s.sp.val then
    .done (s.stk[s.sp.val - 1]'(by have := s.sp.isLt; omega))
      { s with sp := ⟨s.sp.val - 1, by have := s.sp.isLt; omega⟩ }
  else raise .stackUnderflow 0xEE s

/-! ## Memory transfers, in ascending order (20_memory.md R54) -/

/-- Write bytes from address `a` up, each checked as it is written: FX33 and LoadRom (43_index_memory.md R165,
70_reset_and_hazards.md R253). -/
def storeBytes : List Byte → Nat → State → Exec Unit
  | [], _, s => .done () s
  | b :: bs, a, s => (memWrite a b s).bind fun _ s' => storeBytes bs (a + 1) s'

/-- Store `count` registers from `V[k]` up at `I + k` up (43_index_memory.md R166). -/
def storeRegs : Nat → Nat → State → Exec Unit
  | 0, _, s => .done () s
  | count + 1, k, s =>
    (regRead k s).bind fun b s' => (memWrite (dataAddr s' k) b s').bind fun _ s'' => storeRegs count (k + 1) s''

/-- Load `count` registers from `V[k]` up from `I + k` up (43_index_memory.md R167). -/
def loadRegs : Nat → Nat → State → Exec Unit
  | 0, _, s => .done () s
  | count + 1, k, s =>
    (memRead (dataAddr s k) s).bind fun b s' => (regWrite k b s').bind fun _ s'' => loadRegs count (k + 1) s''

/-- Read `count` bytes from `I + k` up (44_display.md R184). -/
def readSprite : Nat → Nat → State → Exec (List Byte)
  | 0, _, s => .done [] s
  | count + 1, k, s =>
    (memRead (dataAddr s k) s).bind fun b s' => (readSprite count (k + 1) s').bind fun bs s'' => .done (b :: bs) s''

/-! ## The rasteriser (44_display.md R180 to R183) -/

/-- `drawPixel(x, y, bit)`: the answer is whether the pixel went from set to clear (44_display.md R181). -/
def drawPixel (x y bit : Nat) (s : State) : Exec Bool :=
  if 63 < x ∨ 31 < y then raise .pixelOutOfBounds (y <<< 16 ||| x) s
  else if bit = 0 then .done false s
  else if bit = 1 then .done (s.pixel x y) (s.flipPixel x y)
  else raise .invalidPixelValue bit s

/-- The set bits of one row from column `c` on, `count` columns, left to right; `col` is the collision so far
(44_display.md R183). A clear bit calls nothing. -/
def drawRow (x0 y : Nat) (row : Byte) : Nat → Nat → Bool → State → Exec Bool
  | 0, _, col, s => .done col s
  | count + 1, c, col, s =>
    if spriteBit row c then
      (drawPixel (x0 + c) y 1 s).bind fun hit s' => drawRow x0 y row count (c + 1) (col || hit) s'
    else drawRow x0 y row count (c + 1) col s

/-- The rows of a sprite from `y` down (44_display.md R183). -/
def drawRows (x0 : Nat) : List Byte → Nat → Bool → State → Exec Bool
  | [], _, col, s => .done col s
  | row :: rows, y, col, s => (drawRow x0 y row 8 0 col s).bind fun col' s' => drawRows x0 rows (y + 1) col' s'

/-- `drawSprite(x0, y0, bytes)`: the answer is the collision (44_display.md R182, R183). -/
def drawSprite (x0 y0 : Nat) (bytes : List Byte) (s : State) : Exec Bool := drawRows x0 bytes y0 false s

/-! ## Control flow shared by the families -/

/-- The skip primitive: `if c: PC <- trunc16(PC + 2)` (41_control_flow.md R114). -/
def skipIf (c : Bool) (s : State) : State := if c then s.setPc (s.pc + 2) else s

end Sys2Proof.Machine
end

