-- ==== Sys2Proof/Machine/Alu.lean ====
section
/-! DEFINITION. Register loads, arithmetic, logic and the random byte (42_alu.md). Statements run in the order written, each
reading the registers as the one before left them (R130); byte arithmetic is modulo 256 (R138). -/

namespace Sys2Proof.Machine

/-- 6XNN, LD: `V[X] <- NN` (42_alu.md R131). -/
def execLdXNN (x : Nibble) (nn : Byte) (s : State) : Host.Outcome State Fault Refusal := .next (s.setReg x nn)

/-- 7XNN, ADD: `V[X] <- trunc8(V[X] + NN)`; no carry flag (42_alu.md R132). -/
def execAddXNN (x : Nibble) (nn : Byte) (s : State) : Host.Outcome State Fault Refusal :=
  .next (s.setReg x (s.reg x + nn))

/-- 8XY0, LD: `V[X] <- V[Y]` (42_alu.md R134). -/
def execLdXY (x y : Nibble) (s : State) : Host.Outcome State Fault Refusal := .next (s.setReg x (s.reg y))

/-- 8XY1, OR: `V[X] <- V[X] OR V[Y]` (42_alu.md R135). -/
def execOrXY (x y : Nibble) (s : State) : Host.Outcome State Fault Refusal :=
  .next (s.setReg x (s.reg x ||| s.reg y))

/-- 8XY2, AND: `V[X] <- V[X] AND V[Y]` (42_alu.md R136). -/
def execAndXY (x y : Nibble) (s : State) : Host.Outcome State Fault Refusal :=
  .next (s.setReg x (s.reg x &&& s.reg y))

/-- 8XY3, XOR: `V[X] <- V[X] XOR V[Y]` (42_alu.md R137). -/
def execXorXY (x y : Nibble) (s : State) : Host.Outcome State Fault Refusal :=
  .next (s.setReg x (s.reg x ^^^ s.reg y))

/-- 8XY4, ADD: `V[X] <- trunc8(V[X] + V[Y])`; VF is not written (42_alu.md R139). -/
def execAddXY (x y : Nibble) (s : State) : Host.Outcome State Fault Refusal :=
  .next (s.setReg x (s.reg x + s.reg y))

/-- 8XY5, SUB: VF first, then `V[X] <- trunc8(V[X] - V[Y])` of the registers as VF's write left them (42_alu.md R140). -/
def execSub (x y : Nibble) (s : State) : Host.Outcome State Fault Refusal :=
  let s' := s.setReg vf (greaterFlag (s.reg x) (s.reg y))
  .next (s'.setReg x (s'.reg x - s'.reg y))

/-- 8XY6, SHR: VF first, then `V[X] <- V[X] >> 1`; Y is not read (42_alu.md R141). -/
def execShr (x _y : Nibble) (s : State) : Host.Outcome State Fault Refusal :=
  let s' := s.setReg vf (shrFlag (s.reg x))
  .next (s'.setReg x (s'.reg x >>> 1))

/-- 8XY7, SUBN: VF first, then `V[X] <- trunc8(V[Y] - V[X])` (42_alu.md R142). -/
def execSubn (x y : Nibble) (s : State) : Host.Outcome State Fault Refusal :=
  let s' := s.setReg vf (greaterFlag (s.reg y) (s.reg x))
  .next (s'.setReg x (s'.reg y - s'.reg x))

/-- 8XYE, SHL: VF first, then `V[X] <- trunc8(V[X] << 1)`; Y is not read (42_alu.md R143). -/
def execShl (x _y : Nibble) (s : State) : Host.Outcome State Fault Refusal :=
  let s' := s.setReg vf (shlFlag (s.reg x))
  .next (s'.setReg x (s'.reg x <<< 1))

/-- CXNN with the sample `r` of RND: `V[X] <- r AND NN` (42_alu.md R144). -/
def maskedRandom (r : Byte) (x : Nibble) (nn : Byte) (s : State) : State := s.setReg x (r &&& nn)

/-- CXNN, RND: one sample of RND, a free value, is taken (42_alu.md R144, 10_state.md R37; log entry 2). -/
def execRnd (x : Nibble) (nn : Byte) (s : State) : Host.Outcome State Fault Refusal :=
  .next (maskedRandom (Config.rndSample s.rndCount) x nn s.countSample)

end Sys2Proof.Machine
end

