-- ==== Sys2Proof/Syntax.lean ====
section
/-! DEFINITION. The instructions: one constructor per row of the opcode table (30_encoding.md R76), in the table's order.
Operand types carry the widths of R71, so every operand the encoding admits is a term and no other is. -/

namespace Sys2Proof

/-- One instruction. `x` and `y` are the register fields, `n`, `nn`, `nnn` the constants of 30_encoding.md R71.
The ignored low nibble of 5XY0 and 9XY0 (R77) is kept, so that decoding loses no bit of the word. -/
inductive Instr where
  /-- 00E0, clear the display (44_display.md R185). -/
  | cls
  /-- 00EE, return from subroutine (41_control_flow.md R110). -/
  | ret
  /-- 1NNN, jump (41_control_flow.md R111). -/
  | jp (nnn : Addr12)
  /-- 2NNN, call subroutine (41_control_flow.md R112). -/
  | call (nnn : Addr12)
  /-- 3XNN, skip if V[X] equals NN (41_control_flow.md R115). -/
  | seXNN (x : Nibble) (nn : Byte)
  /-- 4XNN, skip if V[X] differs from NN (41_control_flow.md R116). -/
  | sneXNN (x : Nibble) (nn : Byte)
  /-- 5XY0, skip if V[X] equals V[Y]; `n` is the ignored nibble (41_control_flow.md R117). -/
  | seXY (x y n : Nibble)
  /-- 6XNN, load an immediate (42_alu.md R131). -/
  | ldXNN (x : Nibble) (nn : Byte)
  /-- 7XNN, add an immediate (42_alu.md R132). -/
  | addXNN (x : Nibble) (nn : Byte)
  /-- 8XY0, copy a register (42_alu.md R134). -/
  | ldXY (x y : Nibble)
  /-- 8XY1, bitwise OR (42_alu.md R135). -/
  | orXY (x y : Nibble)
  /-- 8XY2, bitwise AND (42_alu.md R136). -/
  | andXY (x y : Nibble)
  /-- 8XY3, bitwise exclusive OR (42_alu.md R137). -/
  | xorXY (x y : Nibble)
  /-- 8XY4, add registers with no carry flag (42_alu.md R139). -/
  | addXY (x y : Nibble)
  /-- 8XY5, subtract (42_alu.md R140). -/
  | sub (x y : Nibble)
  /-- 8XY6, shift right by one; `y` is decoded and not read (42_alu.md R141). -/
  | shr (x y : Nibble)
  /-- 8XY7, reverse subtract (42_alu.md R142). -/
  | subn (x y : Nibble)
  /-- 8XYE, shift left by one; `y` is decoded and not read (42_alu.md R143). -/
  | shl (x y : Nibble)
  /-- 9XY0, skip if V[X] differs from V[Y]; `n` is the ignored nibble (41_control_flow.md R118). -/
  | sneXY (x y n : Nibble)
  /-- ANNN, load the index register (43_index_memory.md R160). -/
  | ldI (nnn : Addr12)
  /-- BNNN, jump with offset V0 (41_control_flow.md R113). -/
  | jpV0 (nnn : Addr12)
  /-- CXNN, masked random byte (42_alu.md R144). -/
  | rnd (x : Nibble) (nn : Byte)
  /-- DXYN, draw an N-row sprite (44_display.md R184). -/
  | drw (x y n : Nibble)
  /-- EX9E, skip if the key is pressed (45_timers_keys.md R205). -/
  | skp (x : Nibble)
  /-- EXA1, skip if the key is not pressed (45_timers_keys.md R206). -/
  | sknp (x : Nibble)
  /-- FX07, read the delay timer (45_timers_keys.md R201). -/
  | ldXDT (x : Nibble)
  /-- FX0A, wait for a key (45_timers_keys.md R207). -/
  | ldXK (x : Nibble)
  /-- FX15, set the delay timer (45_timers_keys.md R202). -/
  | ldDTX (x : Nibble)
  /-- FX18, set the sound timer (45_timers_keys.md R203). -/
  | ldSTX (x : Nibble)
  /-- FX1E, add a register to the index (43_index_memory.md R162). -/
  | addIX (x : Nibble)
  /-- FX29, point I at a font glyph (43_index_memory.md R163). -/
  | ldFX (x : Nibble)
  /-- FX33, store the BCD digits of a register (43_index_memory.md R165). -/
  | ldBX (x : Nibble)
  /-- FX55, store registers V0 to VX (43_index_memory.md R166). -/
  | stRegs (x : Nibble)
  /-- FX65, load registers V0 to VX (43_index_memory.md R167). -/
  | ldRegs (x : Nibble)
  /-- 0000, the halt sentinel of the execution loop (40_cycle.md R92). -/
  | halt
  deriving DecidableEq, Repr

end Sys2Proof
end

