-- ==== Sys2Proof/WellFormed.lean ====
section
/-! DEFINITION. Which instructions are well formed: the canonical ones, those a mnemonic line spells
(30_encoding.md R83, R84). -/

namespace Sys2Proof

/-- DESIGN CHOICE, safe (log entry 15). The widths of all operands are in their types, so the one thing a term can have
that the table's rows do not give is a nonzero ignored nibble in 5XY0 or 9XY0: such a word has no spelling of its own
(30_encoding.md R84). The machine executes it all the same (R77); no meaning asks for well-formedness. -/
def Instr.wellFormed : Instr → Bool
  | .seXY _ _ n => n == 0
  | .sneXY _ _ n => n == 0
  | .cls | .ret | .halt => true
  | .jp _ | .call _ | .ldI _ | .jpV0 _ => true
  | .seXNN _ _ | .sneXNN _ _ | .ldXNN _ _ | .addXNN _ _ | .rnd _ _ => true
  | .ldXY _ _ | .orXY _ _ | .andXY _ _ | .xorXY _ _ | .addXY _ _ => true
  | .sub _ _ | .shr _ _ | .subn _ _ | .shl _ _ => true
  | .drw _ _ _ => true
  | .skp _ | .sknp _ | .ldXDT _ | .ldXK _ | .ldDTX _ | .ldSTX _ => true
  | .addIX _ | .ldFX _ | .ldBX _ | .stRegs _ | .ldRegs _ => true

end Sys2Proof
end

