-- ==== Sys2Proof/Decode.lean ====
section
/-! DEFINITION. The decoder and dispatcher of 30_encoding.md (R70 to R82), the opcode table of R76, the encoder, and the
host's view of the decoder. -/

namespace Sys2Proof

/-! ## The fields of a word (30_encoding.md R71) -/

/-- OP, the high nibble. -/
def fieldOP (w : Word) : Nibble := w.extractLsb' 12 4

/-- X, the second nibble. -/
def fieldX (w : Word) : Nibble := w.extractLsb' 8 4

/-- Y, the third nibble. -/
def fieldY (w : Word) : Nibble := w.extractLsb' 4 4

/-- N, the fourth nibble. -/
def fieldN (w : Word) : Nibble := w.extractLsb' 0 4

/-- NN, the low byte. -/
def fieldNN (w : Word) : Byte := w.extractLsb' 0 8

/-- NNN, the low 12 bits. -/
def fieldNNN (w : Word) : Addr12 := w.extractLsb' 0 12

/-! ## The dispatcher (30_encoding.md R74, R75) -/

/-- Why bytes decode to no instruction. -/
inductive DecodeError where
  /-- The word matches no row of the opcode table (30_encoding.md R78). -/
  | unknownOpcode (w : Word)
  /-- Fewer than the two bytes of a word were given (R70); the fetch never gives fewer. -/
  | truncated (bytes : Nat)
  deriving DecidableEq, Repr

/-- High nibble 0x0: the full word must match (30_encoding.md R74, R80). -/
def decodeFamily0 (w : Word) : Except DecodeError Instr :=
  if w = 0x00E0#16 then .ok .cls
  else if w = 0x00EE#16 then .ok .ret
  else if w = 0x0000#16 then .ok .halt
  else .error (.unknownOpcode w)

/-- High nibble 0x8: the low nibble selects (30_encoding.md R74; 42_alu.md R133). -/
def decodeFamily8 (w : Word) : Except DecodeError Instr :=
  if fieldN w = 0x0#4 then .ok (.ldXY (fieldX w) (fieldY w))
  else if fieldN w = 0x1#4 then .ok (.orXY (fieldX w) (fieldY w))
  else if fieldN w = 0x2#4 then .ok (.andXY (fieldX w) (fieldY w))
  else if fieldN w = 0x3#4 then .ok (.xorXY (fieldX w) (fieldY w))
  else if fieldN w = 0x4#4 then .ok (.addXY (fieldX w) (fieldY w))
  else if fieldN w = 0x5#4 then .ok (.sub (fieldX w) (fieldY w))
  else if fieldN w = 0x6#4 then .ok (.shr (fieldX w) (fieldY w))
  else if fieldN w = 0x7#4 then .ok (.subn (fieldX w) (fieldY w))
  else if fieldN w = 0xE#4 then .ok (.shl (fieldX w) (fieldY w))
  else .error (.unknownOpcode w)

/-- High nibble 0xE: the low byte selects (30_encoding.md R74). -/
def decodeFamilyE (w : Word) : Except DecodeError Instr :=
  if fieldNN w = 0x9E#8 then .ok (.skp (fieldX w))
  else if fieldNN w = 0xA1#8 then .ok (.sknp (fieldX w))
  else .error (.unknownOpcode w)

/-- High nibble 0xF: the low byte selects (30_encoding.md R74). -/
def decodeFamilyF (w : Word) : Except DecodeError Instr :=
  if fieldNN w = 0x07#8 then .ok (.ldXDT (fieldX w))
  else if fieldNN w = 0x0A#8 then .ok (.ldXK (fieldX w))
  else if fieldNN w = 0x15#8 then .ok (.ldDTX (fieldX w))
  else if fieldNN w = 0x18#8 then .ok (.ldSTX (fieldX w))
  else if fieldNN w = 0x1E#8 then .ok (.addIX (fieldX w))
  else if fieldNN w = 0x29#8 then .ok (.ldFX (fieldX w))
  else if fieldNN w = 0x33#8 then .ok (.ldBX (fieldX w))
  else if fieldNN w = 0x55#8 then .ok (.stRegs (fieldX w))
  else if fieldNN w = 0x65#8 then .ok (.ldRegs (fieldX w))
  else .error (.unknownOpcode w)

/-- `Dispatch(w)` of 30_encoding.md R75 with the operands of R71: total on every word. HALT is an outcome of its own, which
`Cycle` runs (40_cycle.md R92) and `ExecuteWord` treats as unknown (R99). -/
def decodeWord (w : Word) : Except DecodeError Instr :=
  match fieldOP w with
  | 0x0#4 => decodeFamily0 w
  | 0x1#4 => .ok (.jp (fieldNNN w))
  | 0x2#4 => .ok (.call (fieldNNN w))
  | 0x3#4 => .ok (.seXNN (fieldX w) (fieldNN w))
  | 0x4#4 => .ok (.sneXNN (fieldX w) (fieldNN w))
  | 0x5#4 => .ok (.seXY (fieldX w) (fieldY w) (fieldN w))
  | 0x6#4 => .ok (.ldXNN (fieldX w) (fieldNN w))
  | 0x7#4 => .ok (.addXNN (fieldX w) (fieldNN w))
  | 0x8#4 => decodeFamily8 w
  | 0x9#4 => .ok (.sneXY (fieldX w) (fieldY w) (fieldN w))
  | 0xA#4 => .ok (.ldI (fieldNNN w))
  | 0xB#4 => .ok (.jpV0 (fieldNNN w))
  | 0xC#4 => .ok (.rnd (fieldX w) (fieldNN w))
  | 0xD#4 => .ok (.drw (fieldX w) (fieldY w) (fieldN w))
  | 0xE#4 => decodeFamilyE w
  | 0xF#4 => decodeFamilyF w
  | _ => .error (.unknownOpcode w)

/-- The word of two bytes in fetch order, high byte first (20_memory.md R52). -/
def wordOfBytes (hi lo : Byte) : Word := hi ++ lo

/-- The high byte of a word, `w[15:8]` (20_memory.md R52). -/
def highByte (w : Word) : Byte := w.extractLsb' 8 8

/-- The low byte of a word, `w[7:0]` (20_memory.md R52). -/
def lowByte (w : Word) : Byte := w.extractLsb' 0 8

/-- Decoding bytes in fetch order: the instruction and the bytes after it. -/
def decode : List Byte → Except DecodeError (Instr × List Byte)
  | [] => .error (.truncated 0)
  | [_] => .error (.truncated 1)
  | hi :: lo :: rest =>
    match decodeWord (wordOfBytes hi lo) with
    | .ok i => .ok (i, rest)
    | .error e => .error e

/-! ## The opcode table (30_encoding.md R76) -/

/-- A row of the table of R76: a word `w` selects it when `(w AND mask) = pattern`, and the row then reads its operands
from the fields of `w`. -/
structure OpcodeRow where
  form : String
  pattern : Word
  mask : Word
  operands : Word → Instr

/-- The rows 1 to 34 of R76 and the sentinel's row, in the table's order. -/
def opcodeTable : List OpcodeRow := [
  ⟨"00E0", 0x00E0, 0xFFFF, fun _ => .cls⟩,
  ⟨"00EE", 0x00EE, 0xFFFF, fun _ => .ret⟩,
  ⟨"1NNN", 0x1000, 0xF000, fun w => .jp (fieldNNN w)⟩,
  ⟨"2NNN", 0x2000, 0xF000, fun w => .call (fieldNNN w)⟩,
  ⟨"3XNN", 0x3000, 0xF000, fun w => .seXNN (fieldX w) (fieldNN w)⟩,
  ⟨"4XNN", 0x4000, 0xF000, fun w => .sneXNN (fieldX w) (fieldNN w)⟩,
  ⟨"5XY0", 0x5000, 0xF000, fun w => .seXY (fieldX w) (fieldY w) (fieldN w)⟩,
  ⟨"6XNN", 0x6000, 0xF000, fun w => .ldXNN (fieldX w) (fieldNN w)⟩,
  ⟨"7XNN", 0x7000, 0xF000, fun w => .addXNN (fieldX w) (fieldNN w)⟩,
  ⟨"8XY0", 0x8000, 0xF00F, fun w => .ldXY (fieldX w) (fieldY w)⟩,
  ⟨"8XY1", 0x8001, 0xF00F, fun w => .orXY (fieldX w) (fieldY w)⟩,
  ⟨"8XY2", 0x8002, 0xF00F, fun w => .andXY (fieldX w) (fieldY w)⟩] ++ [
  ⟨"8XY3", 0x8003, 0xF00F, fun w => .xorXY (fieldX w) (fieldY w)⟩,
  ⟨"8XY4", 0x8004, 0xF00F, fun w => .addXY (fieldX w) (fieldY w)⟩,
  ⟨"8XY5", 0x8005, 0xF00F, fun w => .sub (fieldX w) (fieldY w)⟩,
  ⟨"8XY6", 0x8006, 0xF00F, fun w => .shr (fieldX w) (fieldY w)⟩,
  ⟨"8XY7", 0x8007, 0xF00F, fun w => .subn (fieldX w) (fieldY w)⟩,
  ⟨"8XYE", 0x800E, 0xF00F, fun w => .shl (fieldX w) (fieldY w)⟩,
  ⟨"9XY0", 0x9000, 0xF000, fun w => .sneXY (fieldX w) (fieldY w) (fieldN w)⟩,
  ⟨"ANNN", 0xA000, 0xF000, fun w => .ldI (fieldNNN w)⟩,
  ⟨"BNNN", 0xB000, 0xF000, fun w => .jpV0 (fieldNNN w)⟩,
  ⟨"CXNN", 0xC000, 0xF000, fun w => .rnd (fieldX w) (fieldNN w)⟩,
  ⟨"DXYN", 0xD000, 0xF000, fun w => .drw (fieldX w) (fieldY w) (fieldN w)⟩,
  ⟨"EX9E", 0xE09E, 0xF0FF, fun w => .skp (fieldX w)⟩] ++ [
  ⟨"EXA1", 0xE0A1, 0xF0FF, fun w => .sknp (fieldX w)⟩,
  ⟨"FX07", 0xF007, 0xF0FF, fun w => .ldXDT (fieldX w)⟩,
  ⟨"FX0A", 0xF00A, 0xF0FF, fun w => .ldXK (fieldX w)⟩,
  ⟨"FX15", 0xF015, 0xF0FF, fun w => .ldDTX (fieldX w)⟩,
  ⟨"FX18", 0xF018, 0xF0FF, fun w => .ldSTX (fieldX w)⟩,
  ⟨"FX1E", 0xF01E, 0xF0FF, fun w => .addIX (fieldX w)⟩,
  ⟨"FX29", 0xF029, 0xF0FF, fun w => .ldFX (fieldX w)⟩,
  ⟨"FX33", 0xF033, 0xF0FF, fun w => .ldBX (fieldX w)⟩,
  ⟨"FX55", 0xF055, 0xF0FF, fun w => .stRegs (fieldX w)⟩,
  ⟨"FX65", 0xF065, 0xF0FF, fun w => .ldRegs (fieldX w)⟩,
  ⟨"0000", 0x0000, 0xFFFF, fun _ => .halt⟩]

/-- `w` selects the row (30_encoding.md R76). -/
def OpcodeRow.selects (r : OpcodeRow) (w : Word) : Bool := w &&& r.mask == r.pattern

/-! ## The encoder (30_encoding.md R73, R76) -/

/-- The word of an instruction, its fixed bits and fields joined from bit 15 down, by the formats of R73. -/
def encode : Instr → Word
  | .cls => 0x00E0#16
  | .ret => 0x00EE#16
  | .jp nnn => 0x1#4 ++ nnn
  | .call nnn => 0x2#4 ++ nnn
  | .seXNN x nn => 0x3#4 ++ x ++ nn
  | .sneXNN x nn => 0x4#4 ++ x ++ nn
  | .seXY x y n => 0x5#4 ++ x ++ y ++ n
  | .ldXNN x nn => 0x6#4 ++ x ++ nn
  | .addXNN x nn => 0x7#4 ++ x ++ nn
  | .ldXY x y => 0x8#4 ++ x ++ y ++ 0x0#4
  | .orXY x y => 0x8#4 ++ x ++ y ++ 0x1#4
  | .andXY x y => 0x8#4 ++ x ++ y ++ 0x2#4
  | .xorXY x y => 0x8#4 ++ x ++ y ++ 0x3#4
  | .addXY x y => 0x8#4 ++ x ++ y ++ 0x4#4
  | .sub x y => 0x8#4 ++ x ++ y ++ 0x5#4
  | .shr x y => 0x8#4 ++ x ++ y ++ 0x6#4
  | .subn x y => 0x8#4 ++ x ++ y ++ 0x7#4
  | .shl x y => 0x8#4 ++ x ++ y ++ 0xE#4
  | .sneXY x y n => 0x9#4 ++ x ++ y ++ n
  | .ldI nnn => 0xA#4 ++ nnn
  | .jpV0 nnn => 0xB#4 ++ nnn
  | .rnd x nn => 0xC#4 ++ x ++ nn
  | .drw x y n => 0xD#4 ++ x ++ y ++ n
  | .skp x => 0xE#4 ++ x ++ 0x9E#8
  | .sknp x => 0xE#4 ++ x ++ 0xA1#8
  | .ldXDT x => 0xF#4 ++ x ++ 0x07#8
  | .ldXK x => 0xF#4 ++ x ++ 0x0A#8
  | .ldDTX x => 0xF#4 ++ x ++ 0x15#8
  | .ldSTX x => 0xF#4 ++ x ++ 0x18#8
  | .addIX x => 0xF#4 ++ x ++ 0x1E#8
  | .ldFX x => 0xF#4 ++ x ++ 0x29#8
  | .ldBX x => 0xF#4 ++ x ++ 0x33#8
  | .stRegs x => 0xF#4 ++ x ++ 0x55#8
  | .ldRegs x => 0xF#4 ++ x ++ 0x65#8
  | .halt => 0x0000#16

/-- The bytes of an instruction as memory holds them, high byte first (20_memory.md R52). -/
def encodeBytes (i : Instr) : List Byte := [highByte (encode i), lowByte (encode i)]

/-! ## The host's view of the decoder -/

/-- The word whose bits the host numbers as the opcode table does; bits from `nbits` up are 0. -/
def tableWord (nbits w : Nat) : Word := BitVec.ofNat 16 (w % 2 ^ nbits)

/-- The instruction the decoder reads from a table word laid out in fetch order. -/
def decodeTableWord (nbits w : Nat) : Option Instr :=
  match decode [highByte (tableWord nbits w), lowByte (tableWord nbits w)] with
  | .ok (i, _) => some i
  | .error _ => none

end Sys2Proof
end

