-- ==== Sys2Proof/Machine/ControlFlow.lean ====
section
/-! DEFINITION. Return, jumps, call and the register skips (41_control_flow.md). PC holds the instruction's address plus 2
under a cycle and the caller's PC under ExecuteWord (40_cycle.md R93, R99). -/

namespace Sys2Proof.Machine

/-- 00EE, RET: `PC <- Pop()` (41_control_flow.md R110). -/
def execRet (s : State) : Host.Outcome State Fault Refusal :=
  ((pop s).bind fun w s' => .done () (s'.setPc w)).outcome

/-- 1NNN, JP: `PC <- zext_16(NNN)` (41_control_flow.md R111). -/
def execJp (nnn : Addr12) (s : State) : Host.Outcome State Fault Refusal := .next (s.setPc (wideAddr nnn))

/-- 2NNN, CALL: `Push(PC)`, then the jump; FINFO of a StackOverflow is the word (41_control_flow.md R112). -/
def execCall (nnn : Addr12) (s : State) : Host.Outcome State Fault Refusal :=
  ((push s.pc (encode (.call nnn)).toNat s).bind fun _ s' => .done () (s'.setPc (wideAddr nnn))).outcome

/-- BNNN, JP V0: the sum is not masked to 12 bits (41_control_flow.md R113). -/
def execJpV0 (nnn : Addr12) (s : State) : Host.Outcome State Fault Refusal :=
  .next (s.setPc (offsetTarget nnn (s.reg 0)))

/-- 3XNN, SE: skip if `V[X] == NN` (41_control_flow.md R115). -/
def execSeXNN (x : Nibble) (nn : Byte) (s : State) : Host.Outcome State Fault Refusal :=
  .next (skipIf (s.reg x == nn) s)

/-- 4XNN, SNE: skip if `V[X] != NN` (41_control_flow.md R116). -/
def execSneXNN (x : Nibble) (nn : Byte) (s : State) : Host.Outcome State Fault Refusal :=
  .next (skipIf (s.reg x != nn) s)

/-- 5XY0, SE: skip if `V[X] == V[Y]`; the low nibble is ignored (41_control_flow.md R117, 30_encoding.md R77). -/
def execSeXY (x y _n : Nibble) (s : State) : Host.Outcome State Fault Refusal :=
  .next (skipIf (s.reg x == s.reg y) s)

/-- 9XY0, SNE: skip if `V[X] != V[Y]`; the low nibble is ignored (41_control_flow.md R118, 30_encoding.md R77). -/
def execSneXY (x y _n : Nibble) (s : State) : Host.Outcome State Fault Refusal :=
  .next (skipIf (s.reg x != s.reg y) s)

end Sys2Proof.Machine
end

