-- ==== Sys2Proof/Machine/Cycle.lean ====
section
/-! DEFINITION. The execution cycle: fetch, halt sentinel, PC advance, timer tick, and the execute-only port
(40_cycle.md). `execute` is the dispatch of 30_encoding.md R75, given as an argument so that Machine/Step.lean only calls
what stands here. -/

namespace Sys2Proof.Machine

/-- 0000, the halt sentinel: the cycle sets RUN and ends. PC is not advanced and nothing ticks (40_cycle.md R92). -/
def execHalt (s : State) : Host.Outcome State Fault Refusal := .next (s.setRun .halted)

/-- The fetch: the byte at PC, then the byte at PC + 1, no alignment rule, PC unchanged (40_cycle.md R91). -/
def fetch (s : State) : Exec Word :=
  (memRead s.pc.toNat s).bind fun hi s' =>
    (memRead (s.pc.toNat + 1) s').bind fun lo s'' => .done (wordOfBytes hi lo) s''

/-- `PC <- trunc16(PC + 2)` (40_cycle.md R93). -/
def advancePc (s : State) : State := s.setPc (s.pc + 2)

/-- The state in which a fetched instruction executes: PC is advanced, but for the halt sentinel, which is not dispatched
(40_cycle.md R92, R93). -/
def beforeExec (i : Instr) (s : State) : State :=
  match i with
  | .halt => s
  | _ => advancePc s

/-- One decrement with a floor at zero (40_cycle.md R95). -/
def countDown (b : Byte) : Byte := if b = 0 then 0 else b - 1

/-- `Tick()`: both timers, then BUZ as the level `ST != 0` (40_cycle.md R95, R96). -/
def tick (s : State) : State :=
  { s with dt := countDown s.dt, st := countDown s.st, buz := countDown s.st != 0 }

/-- The end of a cycle: it ticks if the operation completed, and not after a fault or a halt (40_cycle.md R92, R95, R98).
No instruction but those two ways of stopping writes RUN. -/
def finishCycle (s : State) : State :=
  match s.run with
  | .running => tick s
  | .halted => s
  | .faulted => s

/-- `finishCycle` on an outcome. -/
def finishOutcome : Host.Outcome State Fault Refusal → Host.Outcome State Fault Refusal
  | .next s => .next (finishCycle s)
  | .fault f => .fault f
  | .refused r => .refused r

/-- The raise of an unknown word, with the word as FINFO (30_encoding.md R78). -/
def unknownWord (w : Word) (s : State) : Host.Outcome State Fault Refusal :=
  (raise (α := Unit) .unknownOpcode w.toNat s).outcome

/-- What a cycle does with a fetched word: halt, or advance and execute, or advance and raise UnknownOpcode
(40_cycle.md R90, R92, R94; 30_encoding.md R78). -/
def runWord (execute : Instr → State → Host.Outcome State Fault Refusal) (w : Word) (s : State) :
    Host.Outcome State Fault Refusal :=
  match decodeWord w with
  | .ok i => finishOutcome (execute i (beforeExec i s))
  | .error _ => unknownWord w (advancePc s)

/-- `Cycle()` (40_cycle.md R90): no effect unless RUN is Running (R97; log entry 8). -/
def cycleWith (execute : Instr → State → Host.Outcome State Fault Refusal) (s : State) :
    Host.Outcome State Fault Refusal :=
  match s.run with
  | .halted => .next s
  | .faulted => .next s
  | .running =>
    match fetch s with
    | .done w s' => runWord execute w s'
    | .raised s' => .next s'

/-- `ExecuteWord(w)` (40_cycle.md R99): no fetch, no PC advance, no halt check, no tick; 0x0000 is unknown here
(30_encoding.md R79). -/
def executeWordWith (execute : Instr → State → Host.Outcome State Fault Refusal) (w : Word) (s : State) :
    Host.Outcome State Fault Refusal :=
  match s.run with
  | .halted => .next s
  | .faulted => .next s
  | .running =>
    match decodeWord w with
    | .ok .halt => unknownWord w s
    | .ok i => execute i s
    | .error _ => unknownWord w s

/-- Where the next fetch reads, if it can read a whole word there; else PROG_BASE. -/
def placeAddr (s : State) : Nat := if s.pc.toNat < Config.addrMax then s.pc.toNat else Config.progBase

/-- A state that fetches `w` next: the word's bytes at PC, high byte first, RUN Running so that a cycle runs, and PC at
PROG_BASE where no word can be fetched at PC (log entry 9). -/
def placeWord (s : State) (w : Word) : State :=
  (((s.setPc (BitVec.ofNat 16 (placeAddr s))).setRun .running).setByte (placeAddr s) (highByte w)).setByte
    (placeAddr s + 1) (lowByte w)

end Sys2Proof.Machine
end

