-- ==== Sys2Proof/Machine/Display.lean ====
section
/-! DEFINITION. The display instructions 00E0 and DXYN (44_display.md R184, R185). -/

namespace Sys2Proof.Machine

/-- 00E0, CLS: every pixel clear; VF is not written (44_display.md R185). -/
def execCls (s : State) : Host.Outcome State Fault Refusal := .next s.clearDisplay

/-- DXYN, DRW: the origin is read first, then all sprite bytes, then the set bits are drawn, then VF is written
(44_display.md R184). -/
def execDrw (x y n : Nibble) (s : State) : Host.Outcome State Fault Refusal :=
  ((readSprite n.toNat 0 s).bind fun bytes s' =>
    (drawSprite (s.reg x).toNat (s.reg y).toNat bytes s').bind fun collided s'' =>
      .done () (s''.setReg vf (collisionFlag collided))).outcome

end Sys2Proof.Machine
end

