-- ==== Sys2Proof/Machine/IndexMemory.lean ====
section
/-! DEFINITION. The index register and the memory transfers (43_index_memory.md). -/

namespace Sys2Proof.Machine

/-- ANNN, LD I: `I <- zext_16(NNN)` (43_index_memory.md R160). -/
def execLdI (nnn : Addr12) (s : State) : Host.Outcome State Fault Refusal := .next (s.setI (wideAddr nnn))

/-- FX1E, ADD I: the sum is a natural, and above 0xFFF it is an IndexOverflow with I unchanged (43_index_memory.md R162). -/
def execAddIX (x : Nibble) (s : State) : Host.Outcome State Fault Refusal :=
  let sum := s.i.toNat + (s.reg x).toNat
  if Config.addrMax < sum then (raise (α := Unit) .indexOverflow sum s).outcome
  else .next (s.setI (BitVec.ofNat 16 sum))

/-- FX29, LD F: `I <- V[X] * 5`, with no mask (43_index_memory.md R163). -/
def execLdFX (x : Nibble) (s : State) : Host.Outcome State Fault Refusal := .next (s.setI (glyphAddr (s.reg x)))

/-- FX33, LD B: the three digits at I, I+1, I+2, each write checked as it is made (43_index_memory.md R165). -/
def execLdBX (x : Nibble) (s : State) : Host.Outcome State Fault Refusal :=
  (storeBytes (bcdBytes (s.reg x)) (dataAddr s 0) s).outcome

/-- FX55, LD [I]: one check of `I + X` before any write (43_index_memory.md R166). -/
def execStRegs (x : Nibble) (s : State) : Host.Outcome State Fault Refusal :=
  if Config.addrMax < dataAddr s x.toNat then (raise (α := Unit) .bulkStoreOverflow (dataAddr s x.toNat) s).outcome
  else (storeRegs (x.toNat + 1) 0 s).outcome

/-- FX65, LD Vx: no check in advance, so registers loaded before a fault stay loaded (43_index_memory.md R167). -/
def execLdRegs (x : Nibble) (s : State) : Host.Outcome State Fault Refusal := (loadRegs (x.toNat + 1) 0 s).outcome

end Sys2Proof.Machine
end

