-- ==== Sys2Proof/Machine/TimersKeys.lean ====
section
/-! DEFINITION. The timer and key instructions (45_timers_keys.md). -/

namespace Sys2Proof.Machine

/-- FX07, LD Vx, DT: DT as it is before this cycle's tick (45_timers_keys.md R201). -/
def execLdXDT (x : Nibble) (s : State) : Host.Outcome State Fault Refusal := .next (s.setReg x s.dt)

/-- FX15, LD DT, Vx (45_timers_keys.md R202). -/
def execLdDTX (x : Nibble) (s : State) : Host.Outcome State Fault Refusal := .next (s.setDt (s.reg x))

/-- FX18, LD ST, Vx: BUZ is not written here (45_timers_keys.md R203). -/
def execLdSTX (x : Nibble) (s : State) : Host.Outcome State Fault Refusal := .next (s.setSt (s.reg x))

/-- EX9E, SKP: skip if key V[X] is pressed (45_timers_keys.md R205). -/
def execSkp (x : Nibble) (s : State) : Host.Outcome State Fault Refusal :=
  ((keyRead (s.reg x).toNat s).bind fun p s' => .done () (skipIf p s')).outcome

/-- EXA1, SKNP: skip if key V[X] is not pressed (45_timers_keys.md R206). -/
def execSknp (x : Nibble) (s : State) : Host.Outcome State Fault Refusal :=
  ((keyRead (s.reg x).toNat s).bind fun p s' => .done () (skipIf (!p) s')).outcome

/-- FX0A, LD Vx, K: the lowest pressed key, or back to this instruction (45_timers_keys.md R207). -/
def execLdXK (x : Nibble) (s : State) : Host.Outcome State Fault Refusal :=
  match s.lowestPressed with
  | some k => .next (s.setReg x (BitVec.ofNat 8 k))
  | none => .next (s.setPc (s.pc - 2))

end Sys2Proof.Machine
end

