-- ==== Sys2Proof/Machine/Dispatch.lean ====
section
/-! DEFINITION. The dispatch of 30_encoding.md R75: one arm per constructor, each a direct call of its meaning. -/

namespace Sys2Proof.Machine

/-- `Execute` of a dispatched operation (40_cycle.md R94): PC is already advanced, and the tick is the cycle's (log entry 7). -/
def exec (i : Instr) (s : State) : Host.Outcome State Fault Refusal :=
  match i with
  | .cls => Sys2Proof.Machine.execCls s
  | .ret => Sys2Proof.Machine.execRet s
  | .jp nnn => Sys2Proof.Machine.execJp nnn s
  | .call nnn => Sys2Proof.Machine.execCall nnn s
  | .seXNN x nn => Sys2Proof.Machine.execSeXNN x nn s
  | .sneXNN x nn => Sys2Proof.Machine.execSneXNN x nn s
  | .seXY x y n => Sys2Proof.Machine.execSeXY x y n s
  | .ldXNN x nn => Sys2Proof.Machine.execLdXNN x nn s
  | .addXNN x nn => Sys2Proof.Machine.execAddXNN x nn s
  | .ldXY x y => Sys2Proof.Machine.execLdXY x y s
  | .orXY x y => Sys2Proof.Machine.execOrXY x y s
  | .andXY x y => Sys2Proof.Machine.execAndXY x y s
  | .xorXY x y => Sys2Proof.Machine.execXorXY x y s
  | .addXY x y => Sys2Proof.Machine.execAddXY x y s
  | .sub x y => Sys2Proof.Machine.execSub x y s
  | .shr x y => Sys2Proof.Machine.execShr x y s
  | .subn x y => Sys2Proof.Machine.execSubn x y s
  | .shl x y => Sys2Proof.Machine.execShl x y s
  | .sneXY x y n => Sys2Proof.Machine.execSneXY x y n s
  | .ldI nnn => Sys2Proof.Machine.execLdI nnn s
  | .jpV0 nnn => Sys2Proof.Machine.execJpV0 nnn s
  | .rnd x nn => Sys2Proof.Machine.execRnd x nn s
  | .drw x y n => Sys2Proof.Machine.execDrw x y n s
  | .skp x => Sys2Proof.Machine.execSkp x s
  | .sknp x => Sys2Proof.Machine.execSknp x s
  | .ldXDT x => Sys2Proof.Machine.execLdXDT x s
  | .ldXK x => Sys2Proof.Machine.execLdXK x s
  | .ldDTX x => Sys2Proof.Machine.execLdDTX x s
  | .ldSTX x => Sys2Proof.Machine.execLdSTX x s
  | .addIX x => Sys2Proof.Machine.execAddIX x s
  | .ldFX x => Sys2Proof.Machine.execLdFX x s
  | .ldBX x => Sys2Proof.Machine.execLdBX x s
  | .stRegs x => Sys2Proof.Machine.execStRegs x s
  | .ldRegs x => Sys2Proof.Machine.execLdRegs x s
  | .halt => Sys2Proof.Machine.execHalt s

end Sys2Proof.Machine
end

