-- ==== Sys2Proof/Machine/Step.lean ====
section
/-! DEFINITION. One step is one `Cycle()` (40_cycle.md R90), and the host's placement of an instruction. -/

namespace Sys2Proof.Machine

/-- `Cycle()` with the dispatch `exec`. -/
def step : State → Host.Outcome State Fault Refusal := cycleWith exec

/-- `s` with the instruction of a table word placed where the next step fetches it (log entry 9). -/
def State.withFetchWord (s : State) (nbits w : Nat) : State := placeWord s (tableWord nbits w)

end Sys2Proof.Machine
end

