-- ==== Sys2Proof/Machine/Ports.lean ====
section
/-! DEFINITION. The block's interface beside `Cycle`: Reset, LoadRom, ExecuteWord, the debug ports, the outputs and the key
input (10_state.md R39, R40, R43; 70_reset_and_hazards.md R250, R253; 40_cycle.md R99), and the moves of the host (R260). -/

namespace Sys2Proof.Machine

/-- `Reset()`: every element of 10_state.md R20 at its reset value, whatever RUN is. The parameter FONT and the inputs are
not elements and stay (70_reset_and_hazards.md R250; log entry 12). -/
def resetOp (s : State) : State :=
  { State.resetWith s.font with keys := s.keys, rndCount := s.rndCount }

/-- `LoadRom(b)`: bytes from 0x200 up while they fit, then MemOutOfRange; nothing unless RUN is Running
(70_reset_and_hazards.md R253). -/
def loadRom (rom : List Byte) (s : State) : Host.Outcome State Fault Refusal :=
  match s.run with
  | .halted => .next s
  | .faulted => .next s
  | .running => (storeBytes rom Config.progBase s).outcome

/-- `ExecuteWord(w)` (40_cycle.md R99). -/
def executeWord : Word → State → Host.Outcome State Fault Refusal := executeWordWith exec

/-- `RUN` as its 2-bit value (10_state.md R38). -/
def RunState.code : RunState → BitVec 2
  | .running => 0
  | .halted => 1
  | .faulted => 2

/-- The run state of a 2-bit value; the reserved 3 has none (10_state.md R38). -/
def RunState.ofCode (c : BitVec 2) : Option RunState :=
  if c = 0 then some .running else if c = 1 then some .halted else if c = 2 then some .faulted else none

/-- The state elements a debug port names, each with its index in its own range (10_state.md R20, R43). -/
inductive Element where
  | v (k : Nibble)
  | i
  | pc
  | stk (k : Nibble)
  | sp
  | mem (a : Addr12)
  | fb (x : BitVec 6) (y : BitVec 5)
  | dt
  | st
  | buz
  | run
  | fcause
  | finfo
  deriving DecidableEq, Repr

/-- The width of an element (10_state.md R20). -/
def Element.width : Element → Nat
  | .v _ => 8
  | .i => 16
  | .pc => 16
  | .stk _ => 16
  | .sp => 5
  | .mem _ => 8
  | .fb _ _ => 1
  | .dt => 8
  | .st => 8
  | .buz => 1
  | .run => 2
  | .fcause => 4
  | .finfo => 32

/-- `DebugRead(element)` (10_state.md R39). -/
def debugRead (e : Element) (s : State) : BitVec e.width :=
  match e with
  | .v k => s.reg k
  | .i => s.i
  | .pc => s.pc
  | .stk k => s.stk[k.toNat]'k.isLt
  | .sp => BitVec.ofNat 5 s.sp.val
  | .mem a => s.byteAt a.toNat
  | .fb x y => BitVec.ofBool (s.pixel x.toNat y.toNat)
  | .dt => s.dt
  | .st => s.st
  | .buz => BitVec.ofBool s.buz
  | .run => s.run.code
  | .fcause => s.fcause
  | .finfo => s.finfo

/-- `FB[x][y] <- bit`, for a pixel inside the framebuffer. -/
def State.setPixel (s : State) (x y : Nat) (bit : Bool) : State := if s.pixel x y = bit then s else s.flipPixel x y

/-- `DebugWrite(element, value)`: a value of SP above 16 or of RUN above 2 is refused and changes nothing
(10_state.md R43; log entry 13). -/
def debugWrite (e : Element) (value : BitVec e.width) (s : State) : State :=
  match e, value with
  | .v k, b => s.setReg k b
  | .i, w => s.setI w
  | .pc, w => s.setPc w
  | .stk k, w => { s with stk := s.stk.set k.toNat w k.isLt }
  | .sp, d => if h : d.toNat < 17 then { s with sp := ⟨d.toNat, h⟩ } else s
  | .mem a, b => s.setByte a.toNat b
  | .fb x y, b => s.setPixel x.toNat y.toNat (b == 1)
  | .dt, b => s.setDt b
  | .st, b => s.setSt b
  | .buz, b => { s with buz := b == 1 }
  | .run, c =>
    match RunState.ofCode c with
    | some r => s.setRun r
    | none => s
  | .fcause, c => { s with fcause := c }
  | .finfo, c => { s with finfo := c }

/-- The host drives KEYS between operations (10_state.md R36, R42). -/
def setKeys (keys : BitVec 16) (s : State) : State := { s with keys := keys }

/-- The outputs the host reads between operations (10_state.md R39). -/
structure Outputs where
  /-- `FB` in the linear order `y*64 + x` (10_state.md R33). -/
  fb : Vector Bool 2048
  delay : Byte
  buzzer : Bool
  runState : BitVec 2
  faultCause : BitVec 4
  faultInfo : BitVec 32
  deriving DecidableEq, Repr

/-- The outputs of a state (10_state.md R33, R39). -/
def State.outputs (s : State) : Outputs where
  fb := Vector.ofFn fun k => s.pixel (k.val % 64) (k.val / 64)
  delay := s.dt
  buzzer := s.buz
  runState := s.run.code
  faultCause := s.fcause
  faultInfo := s.finfo

/-- The moves of the host (70_reset_and_hazards.md R260): the five operations of 10_state.md R40 and a change of KEYS.
RND needs no move: each sample is a free value (log entry 2). -/
inductive HostMove where
  | reset
  | loadRom (rom : List Byte)
  | cycle
  | executeWord (w : Word)
  | debugWrite (e : Element) (value : BitVec e.width)
  | setKeys (keys : BitVec 16)

/-- One move, atomic (10_state.md R42). -/
def hostMove (m : HostMove) (s : State) : Host.Outcome State Fault Refusal :=
  match m with
  | .reset => .next (resetOp s)
  | .loadRom rom => loadRom rom s
  | .cycle => step s
  | .executeWord w => executeWord w s
  | .debugWrite e value => .next (debugWrite e value s)
  | .setKeys keys => .next (setKeys keys s)

/-- A sequence of moves, the only way the state of the block changes (70_reset_and_hazards.md R256, R260). -/
def hostMoves : List HostMove → State → Host.Outcome State Fault Refusal
  | [], s => .next s
  | m :: ms, s =>
    match hostMove m s with
    | .next s' => hostMoves ms s'
    | .fault f => .fault f
    | .refused r => .refused r

end Sys2Proof.Machine
end

