-- ==== Sys2Proof/Safety.lean ====
section
/-! DEFINITION. The terms in which claims are stated: what an operation leaves unchanged, how it ends in a fault, what a
sprite covers, and the invariants of the block. -/

namespace Sys2Proof.Machine

/-! ## Frames -/

/-- The parts of the state beside the general registers, for saying which of them an operation may change. -/
inductive Part where
  | index
  | counter
  | stack
  | memory
  | display
  | delay
  | sound
  | buzzer
  | runState
  | inputs
  | samples
  deriving DecidableEq, Repr

/-- The part is the same in both states. Memory is compared by what every address reads as; `runState` is RUN, FCAUSE and
FINFO; `inputs` is the parameter FONT and KEYS. -/
def Part.same (p : Part) (s t : State) : Prop :=
  match p with
  | .index => t.i = s.i
  | .counter => t.pc = s.pc
  | .stack => t.stk = s.stk ∧ t.sp = s.sp
  | .memory => ∀ a, t.byteAt a = s.byteAt a
  | .display => t.fb = s.fb
  | .delay => t.dt = s.dt
  | .sound => t.st = s.st
  | .buzzer => t.buz = s.buz
  | .runState => t.run = s.run ∧ t.fcause = s.fcause ∧ t.finfo = s.finfo
  | .inputs => t.font = s.font ∧ t.keys = s.keys
  | .samples => t.rndCount = s.rndCount

/-- From `s` to `t`, every general register outside `regs` and every part outside `parts` is unchanged. -/
def OnlyChanges (regs : List Nibble) (parts : List Part) (s t : State) : Prop :=
  (∀ z, z ∉ regs → t.reg z = s.reg z) ∧ ∀ p, p ∉ parts → p.same s t

/-- The next state of an outcome has the property. -/
def NextWith (o : Host.Outcome State Fault Refusal) (P : State → Prop) : Prop := ∃ t, o = .next t ∧ P t

/-- The operation raised the fault of code `code` and information `info`, and changed no general register and no part
outside `parts` but RUN, FCAUSE and FINFO (60_exceptions.md R222). -/
def FaultsWith (o : Host.Outcome State Fault Refusal) (code : BitVec 4) (info : BitVec 32) (regs : List Nibble)
    (parts : List Part) (s : State) : Prop :=
  NextWith o fun t => t.run = .faulted ∧ t.fcause = code ∧ t.finfo = info ∧ OnlyChanges regs (.runState :: parts) s t

/-! ## Encodings -/

/-- Every word `w` with `(w AND mask) = pattern` decodes to the row's instruction, with its operands read from `w`
(30_encoding.md R76). -/
def RowReads (mask pattern : Word) (row : Word → Instr) : Prop :=
  ∀ w : Word, w &&& mask = pattern → decodeWord w = .ok (row w)

/-- The word at PC, high byte first (20_memory.md R52), where both bytes exist. -/
def State.wordAtPc (s : State) : Word := wordOfBytes (s.byteAt s.pc.toNat) (s.byteAt (s.pc.toNat + 1))

/-- A cycle can fetch: RUN is Running and both bytes of the word exist (40_cycle.md R90, R91). -/
def State.CanFetch (s : State) : Prop := s.run = .running ∧ s.pc.toNat + 1 ≤ 0xFFF

/-! ## Sprites (44_display.md R183, R184) -/

/-- Column `c` of row `r` of the sprite at I has a set bit. -/
def State.SpriteSet (s : State) (r c : Nat) : Prop := spriteBit (s.byteAt (dataAddr s r)) c = true

/-- The pixel (p, q) lies under a set bit of the n-row sprite at I drawn at (x0, y0). -/
def State.SpriteCovers (s : State) (x0 y0 n p q : Nat) : Prop :=
  ∃ r c, r < n ∧ c < 8 ∧ s.SpriteSet r c ∧ p = x0 + c ∧ q = y0 + r

/-- Some set bit of the sprite falls on a set pixel (R182). -/
def State.SpriteCollides (s : State) (x0 y0 n : Nat) : Prop :=
  ∃ p q, s.SpriteCovers x0 y0 n p q ∧ s.pixel p q = true

/-- Position (r, c) comes before (r', c') in row-major order, left to right (R183). -/
def DrawnBefore (r c r' c' : Nat) : Prop := r < r' ∨ (r = r' ∧ c < c')

/-- The pixel (p, q) lies under a set bit of the rows `bytes` drawn at (x0, y0) (R183). -/
def BytesCover (x0 y0 : Nat) (bytes : List Byte) (p q : Nat) : Prop :=
  ∃ r c row, bytes[r]? = some row ∧ c < 8 ∧ spriteBit row c = true ∧ p = x0 + c ∧ q = y0 + r

/-! ## The debug port (10_state.md R43) -/

/-- A value the port does not refuse: SP up to 16, RUN up to 2, anything of its width elsewhere. -/
def Element.accepts (e : Element) (value : BitVec e.width) : Prop :=
  match e with
  | .sp => value.toNat ≤ 16
  | .run => value.toNat ≤ 2
  | _ => True

/-! ## What each instruction may do -/

/-- The fault codes each instruction can raise (60_exceptions.md R221). -/
def mayRaise : Instr → List (BitVec 4)
  | .ret => [6]
  | .call _ => [5]
  | .drw _ _ _ => [2, 8]
  | .skp _ => [7]
  | .sknp _ => [7]
  | .addIX _ => [3]
  | .ldBX _ => [2]
  | .stRegs _ => [4]
  | .ldRegs _ => [2]
  | .cls | .halt => []
  | .jp _ | .ldI _ | .jpV0 _ => []
  | .seXNN _ _ | .sneXNN _ _ | .ldXNN _ _ | .addXNN _ _ | .rnd _ _ => []
  | .ldXY _ _ | .orXY _ _ | .andXY _ _ | .xorXY _ _ | .addXY _ _ => []
  | .sub _ _ | .shr _ _ | .subn _ _ | .shl _ _ => []
  | .seXY _ _ _ | .sneXY _ _ _ => []
  | .ldXDT _ | .ldXK _ | .ldDTX _ | .ldSTX _ | .ldFX _ => []

/-- The general registers each instruction may write: its X operand as the rules of 42_alu.md, 43_index_memory.md and
45_timers_keys.md say, and VF for the five operations of 10_state.md R25. -/
def mayWrite (i : Instr) (z : Nibble) : Prop :=
  match i with
  | .ldXNN x _ | .addXNN x _ | .rnd x _ => z = x
  | .ldXY x _ | .orXY x _ | .andXY x _ | .xorXY x _ | .addXY x _ => z = x
  | .sub x _ | .shr x _ | .subn x _ | .shl x _ => z = x ∨ z = 0xF
  | .drw _ _ _ => z = 0xF
  | .ldXDT x | .ldXK x => z = x
  | .ldRegs x => z.toNat ≤ x.toNat
  | .cls | .ret | .halt => False
  | .jp _ | .call _ | .ldI _ | .jpV0 _ => False
  | .seXNN _ _ | .sneXNN _ _ | .seXY _ _ _ | .sneXY _ _ _ => False
  | .skp _ | .sknp _ | .ldDTX _ | .ldSTX _ => False
  | .addIX _ | .ldFX _ | .ldBX _ | .stRegs _ => False

/-- The parts beside the general registers that each instruction may change: its own effect, and RUN with the fault record
where it can raise a fault (60_exceptions.md R221) or halts. Which bytes, pixels and stack slots of those parts it may change,
`mayStore`, `mayDraw` and `mayPush` say. -/
def mayChange : Instr → List Part
  | .cls => [.display]
  | .ret | .call _ => [.counter, .stack, .runState]
  | .jp _ | .jpV0 _ => [.counter]
  | .seXNN _ _ | .sneXNN _ _ | .seXY _ _ _ | .sneXY _ _ _ => [.counter]
  | .ldXNN _ _ | .addXNN _ _ => []
  | .ldXY _ _ | .orXY _ _ | .andXY _ _ | .xorXY _ _ | .addXY _ _ => []
  | .sub _ _ | .shr _ _ | .subn _ _ | .shl _ _ => []
  | .ldI _ | .ldFX _ => [.index]
  | .rnd _ _ => [.samples]
  | .drw _ _ _ => [.display, .runState]
  | .skp _ | .sknp _ => [.counter, .runState]
  | .ldXDT _ => []
  | .ldXK _ => [.counter]
  | .ldDTX _ => [.delay]
  | .ldSTX _ => [.sound]
  | .addIX _ => [.index, .runState]
  | .ldBX _ | .stRegs _ => [.memory, .runState]
  | .ldRegs _ => [.runState]
  | .halt => [.runState]

/-- The addresses each instruction may store to in the state it executes in: I to I + 2 for FX33 and I to I + X for FX55
(43_index_memory.md R168). -/
def mayStore (i : Instr) (s : State) (a : Nat) : Prop :=
  match i with
  | .ldBX _ => ∃ j < 3, a = dataAddr s j
  | .stRegs x => ∃ j ≤ x.toNat, a = dataAddr s j
  | .cls | .ret | .halt => False
  | .jp _ | .call _ | .ldI _ | .jpV0 _ => False
  | .seXNN _ _ | .sneXNN _ _ | .seXY _ _ _ | .sneXY _ _ _ => False
  | .ldXNN _ _ | .addXNN _ _ | .rnd _ _ => False
  | .ldXY _ _ | .orXY _ _ | .andXY _ _ | .xorXY _ _ | .addXY _ _ => False
  | .sub _ _ | .shr _ _ | .subn _ _ | .shl _ _ => False
  | .drw _ _ _ => False
  | .skp _ | .sknp _ | .ldXDT _ | .ldXK _ | .ldDTX _ | .ldSTX _ => False
  | .addIX _ | .ldFX _ | .ldRegs _ => False

/-- The pixels each instruction may change: all of them for 00E0, and those under a set bit of the sprite for DXYN
(44_display.md R184, R185). -/
def mayDraw (i : Instr) (s : State) (p q : Nat) : Prop :=
  match i with
  | .cls => True
  | .drw x y n => s.SpriteCovers (s.reg x).toNat (s.reg y).toNat n.toNat p q
  | .ret | .halt => False
  | .jp _ | .call _ | .ldI _ | .jpV0 _ => False
  | .seXNN _ _ | .sneXNN _ _ | .seXY _ _ _ | .sneXY _ _ _ => False
  | .ldXNN _ _ | .addXNN _ _ | .rnd _ _ => False
  | .ldXY _ _ | .orXY _ _ | .andXY _ _ | .xorXY _ _ | .addXY _ _ => False
  | .sub _ _ | .shr _ _ | .subn _ _ | .shl _ _ => False
  | .skp _ | .sknp _ | .ldXDT _ | .ldXK _ | .ldDTX _ | .ldSTX _ => False
  | .addIX _ | .ldFX _ | .ldBX _ | .stRegs _ | .ldRegs _ => False

/-- The stack slots each instruction may write: the one at SP for 2NNN (10_state.md R29, R30). -/
def mayPush (i : Instr) (s : State) (k : Nat) : Prop :=
  match i with
  | .call _ => k = s.sp.val
  | .cls | .ret | .halt => False
  | .jp _ | .ldI _ | .jpV0 _ => False
  | .seXNN _ _ | .sneXNN _ _ | .seXY _ _ _ | .sneXY _ _ _ => False
  | .ldXNN _ _ | .addXNN _ _ | .rnd _ _ => False
  | .ldXY _ _ | .orXY _ _ | .andXY _ _ | .xorXY _ _ | .addXY _ _ => False
  | .sub _ _ | .shr _ _ | .subn _ _ | .shl _ _ => False
  | .drw _ _ _ => False
  | .skp _ | .sknp _ | .ldXDT _ | .ldXK _ | .ldDTX _ | .ldSTX _ => False
  | .addIX _ | .ldFX _ | .ldBX _ | .stRegs _ | .ldRegs _ => False

/-! ## Invariants -/

/-- Memory keeps its canonical form. -/
def State.MemoryCanonical (s : State) : Prop := Memory.wf s.font s.mem

/-- FCAUSE and FINFO are 0 unless RUN is Faulted, and FCAUSE is then a defined code, 1 to 10 (10_state.md R38,
60_exceptions.md R220). -/
def State.FaultRecordSound (s : State) : Prop :=
  if s.run = .faulted then 1 ≤ s.fcause.toNat ∧ s.fcause.toNat ≤ 10 else s.fcause = 0 ∧ s.finfo = 0

/-- The index register stays an address (10_state.md R26). -/
def State.IndexBounded (s : State) : Prop := s.i.toNat ≤ 0xFFF

/-- PC and every stack slot stay within the bounds of a run by cycles (10_state.md R28). -/
def State.CounterBounded (s : State) : Prop := s.pc.toNat ≤ 0x10FE ∧ ∀ k : Nat, ∀ h : k < 16, s.stk[k].toNat ≤ 0x1000

/-- BUZ is the level `ST != 0` (40_cycle.md R96). -/
def State.BuzzerLevel (s : State) : Prop := s.buz = true ↔ s.st ≠ 0

/-- What holds in every state of a run that starts from Reset and uses only LoadRom and Cycle. -/
structure State.Sound (s : State) : Prop where
  memory : s.MemoryCanonical
  record : s.FaultRecordSound
  index : s.IndexBounded
  counter : s.CounterBounded
  buzzer : s.BuzzerLevel

end Sys2Proof.Machine
end

