-- ==== Sys2Proof/Certificates/Slice0/Obligations.lean ====
section
/-! DEFINITION. The statements for the provers. A docstring that begins with rules of spec/ formalises them whole; one that
begins with 'After' rests on the rules it names. PC is already advanced in a state `exec` is given (40_cycle.md R93; log
entry 7). Every `NextWith` and `FaultsWith` is a completion: the outcome IS a next state. -/

open Sys2Proof Sys2Proof.Machine

/-! ## Control flow (41_control_flow.md) -/

/-- R110: 00EE pops the return address, and on an empty stack is a StackUnderflow that leaves PC, SP and STK. -/
def Obligations.RetPopsOrUnderflows : Prop :=
  RowReads 0xFFFF 0x00EE (fun _ => .ret) ∧
  (∀ s, 0 < s.sp.val → NextWith (exec .ret s) fun t =>
    s.stk[s.sp.val - 1]? = some t.pc ∧ t.sp.val = s.sp.val - 1 ∧ t.stk = s.stk ∧ OnlyChanges [] [.counter, .stack] s t) ∧
  ∀ s, s.sp.val = 0 → FaultsWith (exec .ret s) 6 0x00EE [] [] s

/-- R111: 1NNN puts the zero-extended address into PC. -/
def Obligations.JpSetsCounter : Prop :=
  RowReads 0xF000 0x1000 (fun w => .jp (fieldNNN w)) ∧
  ∀ s nnn, NextWith (exec (.jp nnn) s) fun t => t.pc.toNat = nnn.toNat ∧ OnlyChanges [] [.counter] s t

/-- R112: 2NNN pushes PC and jumps, and with a full stack is a StackOverflow, whose FINFO is the word, that leaves PC, SP
and STK. -/
def Obligations.CallPushesOrOverflows : Prop :=
  RowReads 0xF000 0x2000 (fun w => .call (fieldNNN w)) ∧
  (∀ s nnn, s.sp.val < 16 → NextWith (exec (.call nnn) s) fun t =>
    t.pc.toNat = nnn.toNat ∧ t.sp.val = s.sp.val + 1 ∧ t.stk[s.sp.val]? = some s.pc ∧
    (∀ k : Nat, k ≠ s.sp.val → t.stk[k]? = s.stk[k]?) ∧ OnlyChanges [] [.counter, .stack] s t) ∧
  ∀ s (w : Word), w &&& 0xF000 = 0x2000 → s.sp.val = 16 →
    FaultsWith (exec (.call (fieldNNN w)) s) 5 (w.setWidth 32) [] [] s

/-- R113: BNNN jumps to NNN + V0, with V0 read whatever the X field holds, and the sum not masked to 12 bits. -/
def Obligations.JpV0AddsRegisterZero : Prop :=
  RowReads 0xF000 0xB000 (fun w => .jpV0 (fieldNNN w)) ∧
  ∀ s nnn, NextWith (exec (.jpV0 nnn) s) fun t =>
    t.pc.toNat = nnn.toNat + (s.reg 0).toNat ∧ OnlyChanges [] [.counter] s t

/-- R115: 3XNN skips one word when V[X] equals NN. -/
def Obligations.SeImmediateSkipsWhenEqual : Prop :=
  RowReads 0xF000 0x3000 (fun w => .seXNN (fieldX w) (fieldNN w)) ∧
  ∀ s x nn, NextWith (exec (.seXNN x nn) s) fun t =>
    t.pc = (if s.reg x = nn then s.pc + 2 else s.pc) ∧ OnlyChanges [] [.counter] s t

/-- R116: 4XNN skips one word when V[X] differs from NN. -/
def Obligations.SneImmediateSkipsWhenDifferent : Prop :=
  RowReads 0xF000 0x4000 (fun w => .sneXNN (fieldX w) (fieldNN w)) ∧
  ∀ s x nn, NextWith (exec (.sneXNN x nn) s) fun t =>
    t.pc = (if s.reg x = nn then s.pc else s.pc + 2) ∧ OnlyChanges [] [.counter] s t

/-- R77, R117, R118: 5XYN and 9XYN, each with any N, skip one word when V[X] equals V[Y] and when it differs. -/
def Obligations.RegisterSkipsIgnoreLowNibble : Prop :=
  RowReads 0xF000 0x5000 (fun w => .seXY (fieldX w) (fieldY w) (fieldN w)) ∧
  RowReads 0xF000 0x9000 (fun w => .sneXY (fieldX w) (fieldY w) (fieldN w)) ∧
  ∀ s x y n,
    (NextWith (exec (.seXY x y n) s) fun t =>
      t.pc = (if s.reg x = s.reg y then s.pc + 2 else s.pc) ∧ OnlyChanges [] [.counter] s t) ∧
    NextWith (exec (.sneXY x y n) s) fun t =>
      t.pc = (if s.reg x = s.reg y then s.pc else s.pc + 2) ∧ OnlyChanges [] [.counter] s t

/-! ## Loads, arithmetic and logic (42_alu.md) -/

/-- R23: a register index above 15 is a RegIndexOutOfRange and a legal one is not, for a read and for a write; no instruction
raises it. -/
def Obligations.RegisterIndexIsChecked : Prop :=
  (∀ s (z : Nibble) b, regRead z.toNat s = .done (s.reg z) s ∧ regWrite z.toNat b s = .done () (s.setReg z b)) ∧
  (∀ s k b, 15 < k → FaultsWith (regRead k s).outcome 9 (BitVec.ofNat 32 k) [] [] s ∧
    FaultsWith (regWrite k b s).outcome 9 (BitVec.ofNat 32 k) [] [] s) ∧
  ∀ i s t, s.run = .running → exec i s = .next t → t.run = .faulted → t.fcause ≠ 9

/-- R131: 6XNN loads its immediate. -/
def Obligations.LdImmediateLoads : Prop :=
  RowReads 0xF000 0x6000 (fun w => .ldXNN (fieldX w) (fieldNN w)) ∧
  ∀ s x nn, NextWith (exec (.ldXNN x nn) s) fun t => t.reg x = nn ∧ OnlyChanges [x] [] s t

/-- R132: 7XNN adds modulo 256 and writes no flag. -/
def Obligations.AddImmediateWraps : Prop :=
  RowReads 0xF000 0x7000 (fun w => .addXNN (fieldX w) (fieldNN w)) ∧
  ∀ s x nn, NextWith (exec (.addXNN x nn) s) fun t =>
    (t.reg x).toNat = ((s.reg x).toNat + nn.toNat) % 256 ∧ OnlyChanges [x] [] s t

/-- R134: 8XY0 copies V[Y] to V[X]. -/
def Obligations.LdRegisterCopies : Prop :=
  RowReads 0xF00F 0x8000 (fun w => .ldXY (fieldX w) (fieldY w)) ∧
  ∀ s x y, NextWith (exec (.ldXY x y) s) fun t => t.reg x = s.reg y ∧ OnlyChanges [x] [] s t

/-- R135, R136, R137: 8XY1, 8XY2 and 8XY3 are the bitwise operations, bit by bit, with no flag. -/
def Obligations.LogicIsBitwise : Prop :=
  RowReads 0xF00F 0x8001 (fun w => .orXY (fieldX w) (fieldY w)) ∧
  RowReads 0xF00F 0x8002 (fun w => .andXY (fieldX w) (fieldY w)) ∧
  RowReads 0xF00F 0x8003 (fun w => .xorXY (fieldX w) (fieldY w)) ∧
  ∀ s x y,
    (NextWith (exec (.orXY x y) s) fun t => OnlyChanges [x] [] s t ∧
      ∀ k, (t.reg x).getLsbD k = ((s.reg x).getLsbD k || (s.reg y).getLsbD k)) ∧
    (NextWith (exec (.andXY x y) s) fun t => OnlyChanges [x] [] s t ∧
      ∀ k, (t.reg x).getLsbD k = ((s.reg x).getLsbD k && (s.reg y).getLsbD k)) ∧
    NextWith (exec (.xorXY x y) s) fun t => OnlyChanges [x] [] s t ∧
      ∀ k, (t.reg x).getLsbD k = ((s.reg x).getLsbD k ^^ (s.reg y).getLsbD k)

/-- R139: 8XY4 adds modulo 256 and does not write VF, unless X is F. -/
def Obligations.AddRegistersHasNoCarry : Prop :=
  RowReads 0xF00F 0x8004 (fun w => .addXY (fieldX w) (fieldY w)) ∧
  ∀ s x y, NextWith (exec (.addXY x y) s) fun t =>
    (t.reg x).toNat = ((s.reg x).toNat + (s.reg y).toNat) % 256 ∧ OnlyChanges [x] [] s t

/-- R140: 8XY5 writes the strict unsigned comparison to VF, then subtracts, with VF as that write left it where X or Y
is F. -/
def Obligations.SubFlagsThenSubtracts : Prop :=
  RowReads 0xF00F 0x8005 (fun w => .sub (fieldX w) (fieldY w)) ∧
  ∀ s x y (f : Byte), f = (if (s.reg y).toNat < (s.reg x).toNat then 1 else 0) →
    NextWith (exec (.sub x y) s) fun t =>
      (x ≠ 0xF → y ≠ 0xF → t.reg 0xF = f ∧ (t.reg x).toNat = ((s.reg x).toNat + 256 - (s.reg y).toNat) % 256) ∧
      (x = 0xF → y ≠ 0xF → (t.reg 0xF).toNat = (f.toNat + 256 - (s.reg y).toNat) % 256) ∧
      (x ≠ 0xF → y = 0xF → t.reg 0xF = f ∧ (t.reg x).toNat = ((s.reg x).toNat + 256 - f.toNat) % 256) ∧
      (x = 0xF → y = 0xF → t.reg 0xF = 0) ∧
      OnlyChanges [x, 0xF] [] s t

/-- R141: 8XY6 writes the bit shifted out to VF, then shifts; with X = F the final VF is 0; Y has no effect. -/
def Obligations.ShrFlagsThenShifts : Prop :=
  RowReads 0xF00F 0x8006 (fun w => .shr (fieldX w) (fieldY w)) ∧
  ∀ s x y, NextWith (exec (.shr x y) s) fun t =>
    (x ≠ 0xF → (t.reg 0xF).toNat = (s.reg x).toNat % 2 ∧ (t.reg x).toNat = (s.reg x).toNat / 2) ∧
    (x = 0xF → t.reg 0xF = 0) ∧
    OnlyChanges [x, 0xF] [] s t

/-- R142: 8XY7 writes the strict unsigned comparison to VF, then subtracts V[X] from V[Y], with VF as that write left it
where X or Y is F. -/
def Obligations.SubnFlagsThenSubtracts : Prop :=
  RowReads 0xF00F 0x8007 (fun w => .subn (fieldX w) (fieldY w)) ∧
  ∀ s x y (f : Byte), f = (if (s.reg x).toNat < (s.reg y).toNat then 1 else 0) →
    NextWith (exec (.subn x y) s) fun t =>
      (x ≠ 0xF → y ≠ 0xF → t.reg 0xF = f ∧ (t.reg x).toNat = ((s.reg y).toNat + 256 - (s.reg x).toNat) % 256) ∧
      (x = 0xF → y ≠ 0xF → (t.reg 0xF).toNat = ((s.reg y).toNat + 256 - f.toNat) % 256) ∧
      (x ≠ 0xF → y = 0xF → t.reg 0xF = f ∧ (t.reg x).toNat = (f.toNat + 256 - (s.reg x).toNat) % 256) ∧
      (x = 0xF → y = 0xF → t.reg 0xF = 0) ∧
      OnlyChanges [x, 0xF] [] s t

/-- R143: 8XYE writes V[X] AND 0x80 to VF, not normalised, then shifts; with X = F the final VF is 0; Y has no effect. -/
def Obligations.ShlFlagsThenShifts : Prop :=
  RowReads 0xF00F 0x800E (fun w => .shl (fieldX w) (fieldY w)) ∧
  ∀ s x y, NextWith (exec (.shl x y) s) fun t =>
    (x ≠ 0xF → t.reg 0xF = (if 128 ≤ (s.reg x).toNat then 0x80 else 0x00) ∧
      (t.reg x).toNat = (s.reg x).toNat * 2 % 256) ∧
    (x = 0xF → t.reg 0xF = 0) ∧
    OnlyChanges [x, 0xF] [] s t

/-- R144, with the model's free value for the sample of RND (log entry 2): CXNN takes exactly one sample and writes its
bits under the mask NN; a zero mask gives 0 and a full mask the sample, whatever it is. -/
def Obligations.RndMasksOneSample : Prop :=
  RowReads 0xF000 0xC000 (fun w => .rnd (fieldX w) (fieldNN w)) ∧
  (∀ s x nn, NextWith (exec (.rnd x nn) s) fun t =>
    (∀ k, (t.reg x).getLsbD k = ((Config.rndSample s.rndCount).getLsbD k && nn.getLsbD k)) ∧
    t.rndCount = s.rndCount + 1 ∧ OnlyChanges [x] [.samples] s t) ∧
  (∀ s x, NextWith (exec (.rnd x 0x00) s) fun t => t.reg x = 0) ∧
  ∀ s x, NextWith (exec (.rnd x 0xFF) s) fun t => t.reg x = Config.rndSample s.rndCount

/-! ## The index register and memory (43_index_memory.md) -/

/-- R160: ANNN loads I with the zero-extended address. -/
def Obligations.LdIndexLoads : Prop :=
  RowReads 0xF000 0xA000 (fun w => .ldI (fieldNNN w)) ∧
  ∀ s nnn, NextWith (exec (.ldI nnn) s) fun t => t.i.toNat = nnn.toNat ∧ OnlyChanges [] [.index] s t

/-- R162: FX1E adds on naturals, and a sum above 0xFFF is an IndexOverflow with I unchanged. -/
def Obligations.AddIndexChecksRange : Prop :=
  RowReads 0xF0FF 0xF01E (fun w => .addIX (fieldX w)) ∧
  (∀ s x, s.i.toNat + (s.reg x).toNat ≤ 0xFFF → NextWith (exec (.addIX x) s) fun t =>
    t.i.toNat = s.i.toNat + (s.reg x).toNat ∧ OnlyChanges [] [.index] s t) ∧
  ∀ s x, 0xFFF < s.i.toNat + (s.reg x).toNat →
    FaultsWith (exec (.addIX x) s) 3 (BitVec.ofNat 32 (s.i.toNat + (s.reg x).toNat)) [] [] s

/-- R163: FX29 sets I to five times V[X], with no mask. -/
def Obligations.LdFontAddressesGlyph : Prop :=
  RowReads 0xF0FF 0xF029 (fun w => .ldFX (fieldX w)) ∧
  ∀ s x, NextWith (exec (.ldFX x) s) fun t => t.i.toNat = (s.reg x).toNat * 5 ∧ OnlyChanges [] [.index] s t

/-- R164, R165: FX33 stores the hundreds, tens and units digits of V[X] at I, I+1 and I+2, and at the first of them above
0xFFF is a MemOutOfRange with the digits below it written. -/
def Obligations.LdBcdStoresDigits : Prop :=
  RowReads 0xF0FF 0xF033 (fun w => .ldBX (fieldX w)) ∧
  (∀ s x, dataAddr s 2 ≤ 0xFFF → NextWith (exec (.ldBX x) s) fun t =>
    (t.byteAt (dataAddr s 0)).toNat = (s.reg x).toNat / 100 ∧
    (t.byteAt (dataAddr s 1)).toNat = (s.reg x).toNat / 10 % 10 ∧
    (t.byteAt (dataAddr s 2)).toNat = (s.reg x).toNat % 10 ∧
    (∀ a, (∀ j < 3, a ≠ dataAddr s j) → t.byteAt a = s.byteAt a) ∧ OnlyChanges [] [.memory] s t) ∧
  ∀ s x k, k < 3 → 0xFFF < dataAddr s k → (∀ j < k, dataAddr s j ≤ 0xFFF) →
    FaultsWith (exec (.ldBX x) s) 2 (BitVec.ofNat 32 (dataAddr s k)) [] [.memory] s ∧
    NextWith (exec (.ldBX x) s) fun t =>
      (0 < k → (t.byteAt (dataAddr s 0)).toNat = (s.reg x).toNat / 100) ∧
      (1 < k → (t.byteAt (dataAddr s 1)).toNat = (s.reg x).toNat / 10 % 10) ∧
      ∀ a, (∀ j < k, a ≠ dataAddr s j) → t.byteAt a = s.byteAt a

/-- R166: FX55 stores V0 to VX from I up, and if I + X is above 0xFFF is a BulkStoreOverflow that writes nothing. -/
def Obligations.StoreRegistersWritesRange : Prop :=
  RowReads 0xF0FF 0xF055 (fun w => .stRegs (fieldX w)) ∧
  (∀ s x, dataAddr s x.toNat ≤ 0xFFF → NextWith (exec (.stRegs x) s) fun t =>
    (∀ k : Nibble, k ≤ x → t.byteAt (dataAddr s k.toNat) = s.reg k) ∧
    (∀ a, (∀ j ≤ x.toNat, a ≠ dataAddr s j) → t.byteAt a = s.byteAt a) ∧ OnlyChanges [] [.memory] s t) ∧
  ∀ s x, 0xFFF < dataAddr s x.toNat →
    FaultsWith (exec (.stRegs x) s) 4 (BitVec.ofNat 32 (dataAddr s x.toNat)) [] [] s

/-- R167: FX65 loads V0 to VX from I up, and at the first address above 0xFFF is a MemOutOfRange with the registers below it
loaded. -/
def Obligations.LoadRegistersReadsRange : Prop :=
  RowReads 0xF0FF 0xF065 (fun w => .ldRegs (fieldX w)) ∧
  (∀ s x, dataAddr s x.toNat ≤ 0xFFF → NextWith (exec (.ldRegs x) s) fun t =>
    (∀ k : Nibble, t.reg k = if k ≤ x then s.byteAt (dataAddr s k.toNat) else s.reg k) ∧
    ∀ p : Part, p.same s t) ∧
  ∀ s x k, k ≤ x.toNat → 0xFFF < dataAddr s k → (∀ j < k, dataAddr s j ≤ 0xFFF) →
    NextWith (exec (.ldRegs x) s) fun t =>
      t.run = .faulted ∧ t.fcause = 2 ∧ t.finfo = BitVec.ofNat 32 (dataAddr s k) ∧
      (∀ z : Nibble, t.reg z = if z.toNat < k then s.byteAt (dataAddr s z.toNat) else s.reg z) ∧
      ∀ p : Part, p ≠ .runState → p.same s t

/-! ## The display (44_display.md) -/

/-- R185: 00E0 clears every pixel and nothing else. -/
def Obligations.ClsClearsEveryPixel : Prop :=
  RowReads 0xFFFF 0x00E0 (fun _ => .cls) ∧
  ∀ s, NextWith (exec .cls s) fun t => (∀ p q, t.pixel p q = false) ∧ OnlyChanges [] [.display] s t

/-- R181: one pixel is inverted by a set bit, which reports whether it was set, and left alone by a clear bit, which never
does; coordinates outside the framebuffer are checked before the value of the bit. -/
def Obligations.DrawPixelXorsOneBit : Prop :=
  (∀ s x y, x ≤ 63 → y ≤ 31 → ∃ t, drawPixel x y 1 s = .done (s.pixel x y) t ∧ OnlyChanges [] [.display] s t ∧
    ∀ p q, t.pixel p q = if p = x ∧ q = y then !s.pixel p q else s.pixel p q) ∧
  (∀ s x y, x ≤ 63 → y ≤ 31 → drawPixel x y 0 s = .done false s) ∧
  (∀ s x y bit, x ≤ 63 → y ≤ 31 → 1 < bit →
    FaultsWith (drawPixel x y bit s).outcome 10 (BitVec.ofNat 32 bit) [] [] s) ∧
  ∀ s x y bit, x < 65536 → (63 < x ∨ 31 < y) →
    FaultsWith (drawPixel x y bit s).outcome 8 (BitVec.ofNat 32 (y * 65536 + x)) [] [] s

/-- R184: with its N bytes in memory and its set bits inside the framebuffer, DXYN inverts exactly the pixels under the set bits
and sets VF to whether one of them was set. A sprite byte above 0xFFF is a MemOutOfRange at the first such address, before
any pixel changes, even where a set bit would fall outside the framebuffer. With all bytes in memory, the first set bit, in
row-major order from the left, whose pixel is outside the framebuffer is a PixelOutOfBounds, and the pixels under the set
bits before it are inverted and no other is. A fault writes no VF. -/
def Obligations.DrwDrawsSpriteOrFaults : Prop :=
  RowReads 0xF000 0xD000 (fun w => .drw (fieldX w) (fieldY w) (fieldN w)) ∧
  (∀ s x y n,
    (∀ r < n.toNat, dataAddr s r ≤ 0xFFF) →
    (∀ p q, s.SpriteCovers (s.reg x).toNat (s.reg y).toNat n.toNat p q → p ≤ 63 ∧ q ≤ 31) →
    NextWith (exec (.drw x y n) s) fun t =>
      (∀ p q, s.SpriteCovers (s.reg x).toNat (s.reg y).toNat n.toNat p q → t.pixel p q = !s.pixel p q) ∧
      (∀ p q, ¬ s.SpriteCovers (s.reg x).toNat (s.reg y).toNat n.toNat p q → t.pixel p q = s.pixel p q) ∧
      (s.SpriteCollides (s.reg x).toNat (s.reg y).toNat n.toNat → t.reg 0xF = 1) ∧
      (¬ s.SpriteCollides (s.reg x).toNat (s.reg y).toNat n.toNat → t.reg 0xF = 0) ∧
      OnlyChanges [0xF] [.display] s t) ∧
  (∀ s x y n r, r < n.toNat → 0xFFF < dataAddr s r → (∀ j < r, dataAddr s j ≤ 0xFFF) →
    FaultsWith (exec (.drw x y n) s) 2 (BitVec.ofNat 32 (dataAddr s r)) [] [] s) ∧
  ∀ s x y n r c,
    (∀ j < n.toNat, dataAddr s j ≤ 0xFFF) →
    r < n.toNat → c < 8 → s.SpriteSet r c →
    (63 < (s.reg x).toNat + c ∨ 31 < (s.reg y).toNat + r) →
    (∀ r' c', DrawnBefore r' c' r c → c' < 8 → s.SpriteSet r' c' →
      (s.reg x).toNat + c' ≤ 63 ∧ (s.reg y).toNat + r' ≤ 31) →
    FaultsWith (exec (.drw x y n) s) 8 (BitVec.ofNat 32 (((s.reg y).toNat + r) * 65536 + ((s.reg x).toNat + c))) []
      [.display] s ∧
    NextWith (exec (.drw x y n) s) fun t =>
      ∀ p q, ((∃ r' c', DrawnBefore r' c' r c ∧ c' < 8 ∧ s.SpriteSet r' c' ∧
          p = (s.reg x).toNat + c' ∧ q = (s.reg y).toNat + r') → t.pixel p q = !s.pixel p q) ∧
        ((¬ ∃ r' c', DrawnBefore r' c' r c ∧ c' < 8 ∧ s.SpriteSet r' c' ∧
          p = (s.reg x).toNat + c' ∧ q = (s.reg y).toNat + r') → t.pixel p q = s.pixel p q)

/-- R182, R186: a draw that stays inside the framebuffer collides exactly when a set bit overlaps a set pixel; a second draw of the
same bytes at the same origin completes, restores every pixel, and collides exactly when a pixel under a set bit was clear
before the first. -/
def Obligations.SpriteDrawIsSelfInverse : Prop :=
  ∀ s x0 y0 bytes hit s', drawSprite x0 y0 bytes s = .done hit s' →
    (hit = true ↔ ∃ p q, BytesCover x0 y0 bytes p q ∧ s.pixel p q = true) ∧
    ∃ hit' s'', drawSprite x0 y0 bytes s' = .done hit' s'' ∧
      (∀ p q, s''.pixel p q = s.pixel p q) ∧
      (hit' = true ↔ ∃ p q, BytesCover x0 y0 bytes p q ∧ s.pixel p q = false)

/-! ## Timers and keys (45_timers_keys.md) -/

/-- R201: FX07 reads DT as it is before the cycle's tick, which then counts it down. -/
def Obligations.LdFromDelayReadsBeforeTick : Prop :=
  RowReads 0xF0FF 0xF007 (fun w => .ldXDT (fieldX w)) ∧
  (∀ s x, NextWith (exec (.ldXDT x) s) fun t => t.reg x = s.dt ∧ OnlyChanges [x] [] s t) ∧
  ∀ s x, s.CanFetch → decodeWord s.wordAtPc = .ok (.ldXDT x) →
    NextWith (step s) fun t => t.reg x = s.dt ∧ t.dt.toNat = s.dt.toNat - 1

/-- R202: FX15 writes DT, which the same cycle's tick counts down; ExecuteWord does not tick. -/
def Obligations.LdToDelayIsTickedOnce : Prop :=
  RowReads 0xF0FF 0xF015 (fun w => .ldDTX (fieldX w)) ∧
  (∀ s x, NextWith (exec (.ldDTX x) s) fun t => t.dt = s.reg x ∧ OnlyChanges [] [.delay] s t) ∧
  (∀ s x, s.CanFetch → decodeWord s.wordAtPc = .ok (.ldDTX x) →
    NextWith (step s) fun t => t.dt.toNat = (s.reg x).toNat - 1) ∧
  ∀ s w x, s.run = .running → decodeWord w = .ok (.ldDTX x) → NextWith (executeWord w s) fun t => t.dt = s.reg x

/-- R203: FX18 writes ST, which the same cycle's tick counts down, with BUZ the level of what is left; ExecuteWord updates
neither. -/
def Obligations.LdToSoundIsTickedOnce : Prop :=
  RowReads 0xF0FF 0xF018 (fun w => .ldSTX (fieldX w)) ∧
  (∀ s x, NextWith (exec (.ldSTX x) s) fun t => t.st = s.reg x ∧ OnlyChanges [] [.sound] s t) ∧
  (∀ s x, s.CanFetch → decodeWord s.wordAtPc = .ok (.ldSTX x) →
    NextWith (step s) fun t => t.st.toNat = (s.reg x).toNat - 1 ∧ (t.buz = true ↔ 1 < (s.reg x).toNat)) ∧
  ∀ s w x, s.run = .running → decodeWord w = .ok (.ldSTX x) →
    NextWith (executeWord w s) fun t => t.st = s.reg x ∧ t.buz = s.buz

/-- R204, R205, R206: EX9E skips when key V[X] is pressed and EXA1 when it is not; V[X] above 15 is a KeyIndexOutOfRange in
both, with no skip. -/
def Obligations.KeySkipsReadOneKey : Prop :=
  RowReads 0xF0FF 0xE09E (fun w => .skp (fieldX w)) ∧ RowReads 0xF0FF 0xE0A1 (fun w => .sknp (fieldX w)) ∧
  (∀ s x, (s.reg x).toNat ≤ 15 →
    (NextWith (exec (.skp x) s) fun t =>
      t.pc = (if s.keys.getLsbD (s.reg x).toNat then s.pc + 2 else s.pc) ∧ OnlyChanges [] [.counter] s t) ∧
    NextWith (exec (.sknp x) s) fun t =>
      t.pc = (if s.keys.getLsbD (s.reg x).toNat then s.pc else s.pc + 2) ∧ OnlyChanges [] [.counter] s t) ∧
  ∀ s x, 15 < (s.reg x).toNat →
    FaultsWith (exec (.skp x) s) 7 ((s.reg x).setWidth 32) [] [] s ∧
    FaultsWith (exec (.sknp x) s) 7 ((s.reg x).setWidth 32) [] [] s

/-- R207: FX0A stores the lowest pressed index; with no key pressed it takes PC back by 2. -/
def Obligations.KeyWaitTakesLowestOrRewinds : Prop :=
  RowReads 0xF0FF 0xF00A (fun w => .ldXK (fieldX w)) ∧
  (∀ s x k, k < 16 → s.keys.getLsbD k = true → (∀ j < k, s.keys.getLsbD j = false) →
    NextWith (exec (.ldXK x) s) fun t => (t.reg x).toNat = k ∧ OnlyChanges [x] [] s t) ∧
  ∀ s x, s.keys = 0 → NextWith (exec (.ldXK x) s) fun t => t.pc = s.pc - 2 ∧ OnlyChanges [] [.counter] s t

/-- R208: a whole re-poll cycle of FX0A ends at the same PC, Running, with both timers counted down, BUZ the level of ST, and
nothing else changed; the first cycle that finds a pressed key ends the wait. -/
def Obligations.KeyWaitRepollTicks : Prop :=
  (∀ s x, s.CanFetch → decodeWord s.wordAtPc = .ok (.ldXK x) → s.keys = 0 →
    NextWith (step s) fun t =>
      t.dt.toNat = s.dt.toNat - 1 ∧ t.st.toNat = s.st.toNat - 1 ∧ (t.buz = true ↔ t.st ≠ 0) ∧
      OnlyChanges [] [.delay, .sound, .buzzer] s t) ∧
  ∀ s x, s.CanFetch → decodeWord s.wordAtPc = .ok (.ldXK x) → s.keys ≠ 0 →
    NextWith (step s) fun t => t.pc = s.pc + 2 ∧ t.run = .running ∧ s.keys.getLsbD (t.reg x).toNat = true

/-! ## The cycle (40_cycle.md) -/

/-- R92: a cycle that fetches 0x0000 sets RUN to Halted, advances no PC and ticks nothing, and the halted block performs no
further cycle. -/
def Obligations.HaltSentinelStops : Prop :=
  RowReads 0xFFFF 0x0000 (fun _ => .halt) ∧
  (∀ s, NextWith (exec .halt s) fun t =>
    t.run = .halted ∧ t.fcause = s.fcause ∧ t.finfo = s.finfo ∧ OnlyChanges [] [.runState] s t) ∧
  ∀ s, s.CanFetch → s.wordAtPc = 0 → NextWith (step s) fun t =>
    t.run = .halted ∧ t.fcause = s.fcause ∧ t.finfo = s.finfo ∧ OnlyChanges [] [.runState] s t ∧ step t = .next t

/-- R52, R91: a fetch with both bytes in memory reads the byte at PC as the high byte and the next as the low byte, odd PC or
even, and changes nothing; one that reads outside memory raises MemOutOfRange at its first such byte, and the cycle leaves
PC unchanged and ticks nothing. -/
def Obligations.FetchReadsWordOrFaults : Prop :=
  (∀ s, s.pc.toNat + 1 ≤ 0xFFF → ∃ w, fetch s = .done w s ∧
    w.toNat = (s.byteAt s.pc.toNat).toNat * 256 + (s.byteAt (s.pc.toNat + 1)).toNat) ∧
  ∀ s, s.run = .running →
    (0xFFF < s.pc.toNat → FaultsWith (step s) 2 (s.pc.setWidth 32) [] [] s) ∧
    (s.pc.toNat = 0xFFF → FaultsWith (step s) 2 0x1000 [] [] s)

/-- After R92, R93, R95: a step whose word decodes to an instruction is `exec` of it on the state with PC advanced by 2 (the halt
sentinel: not advanced) and nothing else changed, followed by the end of the cycle. The division of a cycle into `beforeExec`,
`exec` and `finishOutcome`, with `exec` called for the sentinel that the spec does not dispatch, is the model's own choice (log
entry 7). -/
def Obligations.StepRunsDecodedInstruction : Prop :=
  (∀ s i, s.CanFetch → decodeWord s.wordAtPc = .ok i → step s = finishOutcome (exec i (beforeExec i s))) ∧
  (∀ s i, i ≠ .halt → (beforeExec i s).pc = s.pc + 2 ∧ OnlyChanges [] [.counter] s (beforeExec i s)) ∧
  ∀ s, beforeExec .halt s = s

/-- R95, R96: after an operation that completes, the cycle counts both timers down with a floor at zero and makes BUZ the level
of ST; no operation writes BUZ itself. -/
def Obligations.CompletedCycleTicks : Prop :=
  (∀ s i t, s.CanFetch → decodeWord s.wordAtPc = .ok i → exec i (beforeExec i s) = .next t → t.run = .running →
    NextWith (step s) fun u =>
      u.dt.toNat = t.dt.toNat - 1 ∧ u.st.toNat = t.st.toNat - 1 ∧ (u.buz = true ↔ u.st ≠ 0) ∧
      OnlyChanges [] [.delay, .sound, .buzzer] t u) ∧
  ∀ i s t, exec i s = .next t → t.buz = s.buz

/-- R98: a cycle whose operation raises a fault ends there: its state is the one the operation left, the timers are not ticked
and BUZ is not updated, and PC is two above the fetched address, or unchanged if the fetch faulted. -/
def Obligations.FaultedCycleEndsAtOnce : Prop :=
  (∀ s i t, s.CanFetch → decodeWord s.wordAtPc = .ok i → exec i (beforeExec i s) = .next t → t.run = .faulted →
    step s = .next t) ∧
  ∀ s t, s.run = .running → step s = .next t → t.run = .faulted →
    t.dt = s.dt ∧ t.st = s.st ∧ t.buz = s.buz ∧
    (s.pc.toNat + 1 ≤ 0xFFF → t.pc = s.pc + 2) ∧ (0xFFF < s.pc.toNat + 1 → t.pc = s.pc)

/-- R78, R80: the words that decode to no operation are exactly those of the four spaces, and a cycle that fetches one raises
UnknownOpcode with the word as FINFO, PC advanced by 2 and nothing else changed. -/
def Obligations.UnknownWordsFault : Prop :=
  (∀ w : Word, (∃ e, decodeWord w = .error e) ↔
    (fieldOP w = 0x0 ∧ w ≠ 0x00E0 ∧ w ≠ 0x00EE ∧ w ≠ 0x0000) ∨
    (fieldOP w = 0x8 ∧ fieldN w ∈ [0x8#4, 0x9#4, 0xA#4, 0xB#4, 0xC#4, 0xD#4, 0xF#4]) ∨
    (fieldOP w = 0xE ∧ fieldNN w ≠ 0x9E ∧ fieldNN w ≠ 0xA1) ∨
    (fieldOP w = 0xF ∧
      fieldNN w ∉ [0x07#8, 0x0A#8, 0x15#8, 0x18#8, 0x1E#8, 0x29#8, 0x33#8, 0x55#8, 0x65#8])) ∧
  ∀ s e, s.CanFetch → decodeWord s.wordAtPc = .error e →
    FaultsWith (step s) 1 (s.wordAtPc.setWidth 32) [] [.counter] s ∧ NextWith (step s) fun t => t.pc = s.pc + 2

/-- R97, R224: nothing runs in a Halted or Faulted block: neither a cycle nor ExecuteWord has an effect; of the host's moves,
only Reset and a DebugWrite change RUN, FCAUSE or FINFO then, and a DebugWrite changes RUN only where it names it. -/
def Obligations.StoppedBlockStays : Prop :=
  (∀ s, s.run ≠ .running → step s = .next s ∧ ∀ w, executeWord w s = .next s) ∧
  (∀ m s t, s.run ≠ .running → hostMove m s = .next t → m ≠ .reset → (∀ e value, m ≠ .debugWrite e value) →
    t.run = s.run ∧ t.fcause = s.fcause ∧ t.finfo = s.finfo) ∧
  ∀ e value s, e ≠ .run → (debugWrite e value s).run = s.run

/-- R99: ExecuteWord runs the dispatched operation on the state as it is, with no PC advance and no tick; 0x0000 and every
unknown word raise UnknownOpcode; unless RUN is Running it does nothing. -/
def Obligations.ExecuteWordRunsInPlace : Prop :=
  (∀ s w, s.run = .running →
    (∀ i, decodeWord w = .ok i → i ≠ .halt → executeWord w s = exec i s) ∧
    (∀ e, decodeWord w = .error e → FaultsWith (executeWord w s) 1 (w.setWidth 32) [] [] s) ∧
    (w = 0 → FaultsWith (executeWord w s) 1 0 [] [] s)) ∧
  ∀ s w, s.run ≠ .running → executeWord w s = .next s

/-- After R53, R61, R258: the bytes FX55 stores at PC are the word the next fetch reads. -/
def Obligations.StoredCodeIsFetched : Prop :=
  ∀ s t x (j k : Nibble), dataAddr s x.toNat ≤ 0xFFF → j < x → k = j + 1 → s.pc.toNat = dataAddr s j.toNat →
    exec (.stRegs x) s = .next t → t.pc = s.pc ∧ t.wordAtPc = s.reg j ++ s.reg k

/-- The model's placement of an instruction (log entry 9): in every state, the placed word is what the next step fetches, no
byte but the word's two changes, where PC could fetch already it does not move, and nothing but PC, memory and RUN changes. -/
def Obligations.PlacedWordIsFetchedNext : Prop :=
  ∀ s nbits w, ∀ t : State, t = s.withFetchWord nbits w →
    t.CanFetch ∧ t.wordAtPc = tableWord nbits w ∧
    (s.pc.toNat + 1 ≤ 0xFFF → t.pc = s.pc) ∧
    (∀ a, a ≠ t.pc.toNat → a ≠ t.pc.toNat + 1 → t.byteAt a = s.byteAt a) ∧
    t.fcause = s.fcause ∧ t.finfo = s.finfo ∧ OnlyChanges [] [.counter, .memory, .runState] s t

/-! ## Decoding (30_encoding.md) -/

/-- After R73, R76, R83: decoding an encoded instruction gives it back, with every operand, from a word and from bytes in fetch
order; and the word of a decoded instruction is the word it came from, so no bit is dropped. For the words 5XYN and 9XYN with
N not 0 this is the model's choice, not the spec's: the instruction keeps the nibble that the dispatcher ignores (log entry
15), while R84 gives the round trip of R83 to canonical words only. -/
def Obligations.DecodeEncodeAgree : Prop :=
  (∀ i, decodeWord (encode i) = .ok i) ∧
  (∀ i rest, decode (encodeBytes i ++ rest) = .ok (i, rest)) ∧
  ∀ w i, decodeWord w = .ok i → encode i = w

/-- R76: the dispatcher's nested cases and the table of match values and masks select the same operation for every word, and
no word selects two rows. -/
def Obligations.DispatcherMeetsTable : Prop :=
  (∀ w i, decodeWord w = .ok i ↔ ∃ r ∈ opcodeTable, r.selects w = true ∧ r.operands w = i) ∧
  opcodeTable.Pairwise fun r r' => ∀ w, ¬ (r.selects w = true ∧ r'.selects w = true)

/-- After R73 and R76: words written out from the encodings (95_test_vectors.md section 2.1) decode to what they stand for. -/
def Obligations.SpecWordsDecode : Prop :=
  decodeWord 0xD123 = .ok (.drw 0x1 0x2 0x3) ∧ decodeWord 0xABCD = .ok (.ldI 0xBCD) ∧
  decodeWord 0x9AB7 = .ok (.sneXY 0xA 0xB 0x7) ∧ decodeWord 0x834E = .ok (.shl 0x3 0x4) ∧
  decodeWord 0xE19E = .ok (.skp 0x1) ∧ decodeWord 0xF165 = .ok (.ldRegs 0x1) ∧
  decodeWord 0x00EE = .ok .ret ∧ decodeWord 0x01E0 = .error (.unknownOpcode 0x01E0)

/-! ## Reset, ROM load and the debug port -/

/-- R41, R250: Reset gives every element of the state its reset value, whatever the state was, and memory is the font and
then zeros. -/
def Obligations.ResetBuildsInitialState : Prop :=
  ∀ s, NextWith (hostMove .reset s) fun t =>
    (∀ z, t.reg z = 0) ∧ t.i = 0 ∧ t.pc = 0x200 ∧ t.sp.val = 0 ∧ (∀ k : Nat, k < 16 → t.stk[k]? = some 0) ∧
    (∀ a : Nat, ∀ h : a < 80, t.byteAt a = s.font[a]) ∧ (∀ a, 80 ≤ a → t.byteAt a = 0) ∧
    (∀ p q, t.pixel p q = false) ∧ t.dt = 0 ∧ t.st = 0 ∧ t.buz = false ∧
    t.run = .running ∧ t.fcause = 0 ∧ t.finfo = 0

/-- R253, R254: LoadRom places byte k at 0x200 + k and changes nothing else; a ROM of more than 0xE00 bytes fills memory and then
raises MemOutOfRange at 0x1000; unless RUN is Running it writes nothing. -/
def Obligations.LoadRomPlacesBytes : Prop :=
  (∀ s rom, s.run = .running → rom.length ≤ 0xE00 → NextWith (loadRom rom s) fun t =>
    (∀ k b, rom[k]? = some b → t.byteAt (0x200 + k) = b) ∧
    (∀ a, a < 0x200 ∨ 0x200 + rom.length ≤ a → t.byteAt a = s.byteAt a) ∧ OnlyChanges [] [.memory] s t) ∧
  (∀ s rom, s.run = .running → 0xE00 < rom.length →
    FaultsWith (loadRom rom s) 2 0x1000 [] [.memory] s ∧
    NextWith (loadRom rom s) fun t =>
      (∀ k b, k < 0xE00 → rom[k]? = some b → t.byteAt (0x200 + k) = b) ∧
      ∀ a, a < 0x200 → t.byteAt a = s.byteAt a) ∧
  ∀ s rom, s.run ≠ .running → loadRom rom s = .next s

/-- R24, R43: DebugWrite sets its element to the value and no other element; a refused value changes nothing. -/
def Obligations.DebugWriteSetsOneElement : Prop :=
  ∀ e value s,
    (e.accepts value → debugRead e (debugWrite e value s) = value) ∧
    (¬ e.accepts value → debugWrite e value s = s) ∧
    ∀ e', e' ≠ e → debugRead e' (debugWrite e value s) = debugRead e' s

/-! ## Whole-machine rules -/

/-- R221: an instruction executed in a Running block ends Running, or Halted for the sentinel alone, or Faulted with a
code that R221 lists for it; so codes 9 to 15 are never raised by one. -/
def Obligations.InstructionsRaiseOnlyListedFaults : Prop :=
  ∀ i s, s.run = .running → NextWith (exec i s) fun t =>
    (t.run = .running ∧ i ≠ .halt) ∨ (t.run = .halted ∧ i = .halt) ∨ (t.run = .faulted ∧ t.fcause ∈ mayRaise i)

/-- After R25, R26, R29, R30, R34, R35, R36, R130, R168, R184: whatever the state, an instruction changes no register but its
destinations (and VF for the five operations of R25), no part of the state but its own effect's, no byte of memory but those
at the addresses it stores to, no pixel but those it clears or draws on, and no stack slot but the one it pushes to; none
changes BUZ, FONT or KEYS. The addresses, pixels and slot are computed from the state before. -/
def Obligations.EveryInstructionKeepsItsFrame : Prop :=
  ∀ i s t, exec i s = .next t →
    (∀ z, ¬ mayWrite i z → t.reg z = s.reg z) ∧
    (∀ p, p ∉ mayChange i → p.same s t) ∧
    (∀ a, ¬ mayStore i s a → t.byteAt a = s.byteAt a) ∧
    (∀ p q, ¬ mayDraw i s p q → t.pixel p q = s.pixel p q) ∧
    ∀ k : Nat, ¬ mayPush i s k → t.stk[k]? = s.stk[k]?

/-- Every move of the host is answered with a next state: nothing the spec describes is a stop of the model (R42, R97, R222;
log entry 5). -/
def Obligations.EveryHostMoveAnswers : Prop := ∀ m s, NextWith (hostMove m s) fun _ => True

/-- After R26, R28, R38, R41, R96: the invariants hold at reset, for every font. One of them, the canonical form of memory, is the
model's own choice (log entry 4). -/
def Obligations.SoundAtReset : Prop := (∀ font, (State.resetWith font).Sound) ∧ State.reset.Sound

/-- After R26, R28, R38, R96: every cycle keeps I at most 0xFFF, PC at most 0x10FE and every stack slot at most 0x1000 (so PC
never wraps), the fault record zero unless Faulted, BUZ the level of ST, and memory in canonical form. The canonical form is
the model's own choice (log entry 4), and no rule of the spec gives it. -/
def Obligations.SoundKeptByEveryStep : Prop := ∀ s t, s.Sound → step s = .next t → t.Sound

/-- After R26, R28, R38, R96: so does every run of Reset, LoadRom, cycles and key changes, from any state in which the invariants
hold. One of them, the canonical form of memory, is the model's own choice (log entry 4), and no rule of the spec gives it. -/
def Obligations.SoundKeptByEveryRun : Prop :=
  ∀ ms s t, s.Sound → (∀ m ∈ ms, m = .reset ∨ m = .cycle ∨ (∃ rom, m = .loadRom rom) ∨ ∃ keys, m = .setKeys keys) →
    hostMoves ms s = .next t → t.Sound

/-- The canonical form of memory, the model's own choice (log entry 4) of how to hold the bytes of R55 and R59, is kept by every
move of the host, the debug and execute ports among them (R43). -/
def Obligations.MemoryCanonicalKeptByEveryMove : Prop :=
  ∀ m s t, s.MemoryCanonical → hostMove m s = .next t → t.MemoryCanonical
end

