-- ==== Sys2Proof/Laws/State.lean ====
section
/-! SUPPORT. One lemma per field per update of the state, then the reads of registers, bytes and pixels after each update,
so that no later proof unfolds a record update. -/

namespace Sys2Proof.Machine

/-! ## `setReg` -/

@[simp] theorem State.setReg_v (s : State) (x : Nibble) (b : Byte) : (s.setReg x b).v = s.v.set x.toNat b x.isLt := rfl
@[simp] theorem State.setReg_i (s : State) (x : Nibble) (b : Byte) : (s.setReg x b).i = s.i := rfl
@[simp] theorem State.setReg_pc (s : State) (x : Nibble) (b : Byte) : (s.setReg x b).pc = s.pc := rfl
@[simp] theorem State.setReg_stk (s : State) (x : Nibble) (b : Byte) : (s.setReg x b).stk = s.stk := rfl
@[simp] theorem State.setReg_sp (s : State) (x : Nibble) (b : Byte) : (s.setReg x b).sp = s.sp := rfl
@[simp] theorem State.setReg_mem (s : State) (x : Nibble) (b : Byte) : (s.setReg x b).mem = s.mem := rfl
@[simp] theorem State.setReg_fb (s : State) (x : Nibble) (b : Byte) : (s.setReg x b).fb = s.fb := rfl
@[simp] theorem State.setReg_dt (s : State) (x : Nibble) (b : Byte) : (s.setReg x b).dt = s.dt := rfl
@[simp] theorem State.setReg_st (s : State) (x : Nibble) (b : Byte) : (s.setReg x b).st = s.st := rfl
@[simp] theorem State.setReg_buz (s : State) (x : Nibble) (b : Byte) : (s.setReg x b).buz = s.buz := rfl
@[simp] theorem State.setReg_run (s : State) (x : Nibble) (b : Byte) : (s.setReg x b).run = s.run := rfl
@[simp] theorem State.setReg_fcause (s : State) (x : Nibble) (b : Byte) : (s.setReg x b).fcause = s.fcause := rfl
@[simp] theorem State.setReg_finfo (s : State) (x : Nibble) (b : Byte) : (s.setReg x b).finfo = s.finfo := rfl
@[simp] theorem State.setReg_font (s : State) (x : Nibble) (b : Byte) : (s.setReg x b).font = s.font := rfl
@[simp] theorem State.setReg_keys (s : State) (x : Nibble) (b : Byte) : (s.setReg x b).keys = s.keys := rfl
@[simp] theorem State.setReg_rndCount (s : State) (x : Nibble) (b : Byte) : (s.setReg x b).rndCount = s.rndCount := rfl

/-! ## `setPc` -/

@[simp] theorem State.setPc_v (s : State) (w : Word) : (s.setPc w).v = s.v := rfl
@[simp] theorem State.setPc_i (s : State) (w : Word) : (s.setPc w).i = s.i := rfl
@[simp] theorem State.setPc_pc (s : State) (w : Word) : (s.setPc w).pc = w := rfl
@[simp] theorem State.setPc_stk (s : State) (w : Word) : (s.setPc w).stk = s.stk := rfl
@[simp] theorem State.setPc_sp (s : State) (w : Word) : (s.setPc w).sp = s.sp := rfl
@[simp] theorem State.setPc_mem (s : State) (w : Word) : (s.setPc w).mem = s.mem := rfl
@[simp] theorem State.setPc_fb (s : State) (w : Word) : (s.setPc w).fb = s.fb := rfl
@[simp] theorem State.setPc_dt (s : State) (w : Word) : (s.setPc w).dt = s.dt := rfl
@[simp] theorem State.setPc_st (s : State) (w : Word) : (s.setPc w).st = s.st := rfl
@[simp] theorem State.setPc_buz (s : State) (w : Word) : (s.setPc w).buz = s.buz := rfl
@[simp] theorem State.setPc_run (s : State) (w : Word) : (s.setPc w).run = s.run := rfl
@[simp] theorem State.setPc_fcause (s : State) (w : Word) : (s.setPc w).fcause = s.fcause := rfl
@[simp] theorem State.setPc_finfo (s : State) (w : Word) : (s.setPc w).finfo = s.finfo := rfl
@[simp] theorem State.setPc_font (s : State) (w : Word) : (s.setPc w).font = s.font := rfl
@[simp] theorem State.setPc_keys (s : State) (w : Word) : (s.setPc w).keys = s.keys := rfl
@[simp] theorem State.setPc_rndCount (s : State) (w : Word) : (s.setPc w).rndCount = s.rndCount := rfl

/-! ## `setI` -/

@[simp] theorem State.setI_v (s : State) (w : Word) : (s.setI w).v = s.v := rfl
@[simp] theorem State.setI_i (s : State) (w : Word) : (s.setI w).i = w := rfl
@[simp] theorem State.setI_pc (s : State) (w : Word) : (s.setI w).pc = s.pc := rfl
@[simp] theorem State.setI_stk (s : State) (w : Word) : (s.setI w).stk = s.stk := rfl
@[simp] theorem State.setI_sp (s : State) (w : Word) : (s.setI w).sp = s.sp := rfl
@[simp] theorem State.setI_mem (s : State) (w : Word) : (s.setI w).mem = s.mem := rfl
@[simp] theorem State.setI_fb (s : State) (w : Word) : (s.setI w).fb = s.fb := rfl
@[simp] theorem State.setI_dt (s : State) (w : Word) : (s.setI w).dt = s.dt := rfl
@[simp] theorem State.setI_st (s : State) (w : Word) : (s.setI w).st = s.st := rfl
@[simp] theorem State.setI_buz (s : State) (w : Word) : (s.setI w).buz = s.buz := rfl
@[simp] theorem State.setI_run (s : State) (w : Word) : (s.setI w).run = s.run := rfl
@[simp] theorem State.setI_fcause (s : State) (w : Word) : (s.setI w).fcause = s.fcause := rfl
@[simp] theorem State.setI_finfo (s : State) (w : Word) : (s.setI w).finfo = s.finfo := rfl
@[simp] theorem State.setI_font (s : State) (w : Word) : (s.setI w).font = s.font := rfl
@[simp] theorem State.setI_keys (s : State) (w : Word) : (s.setI w).keys = s.keys := rfl
@[simp] theorem State.setI_rndCount (s : State) (w : Word) : (s.setI w).rndCount = s.rndCount := rfl

/-! ## `setDt` -/

@[simp] theorem State.setDt_v (s : State) (b : Byte) : (s.setDt b).v = s.v := rfl
@[simp] theorem State.setDt_i (s : State) (b : Byte) : (s.setDt b).i = s.i := rfl
@[simp] theorem State.setDt_pc (s : State) (b : Byte) : (s.setDt b).pc = s.pc := rfl
@[simp] theorem State.setDt_stk (s : State) (b : Byte) : (s.setDt b).stk = s.stk := rfl
@[simp] theorem State.setDt_sp (s : State) (b : Byte) : (s.setDt b).sp = s.sp := rfl
@[simp] theorem State.setDt_mem (s : State) (b : Byte) : (s.setDt b).mem = s.mem := rfl
@[simp] theorem State.setDt_fb (s : State) (b : Byte) : (s.setDt b).fb = s.fb := rfl
@[simp] theorem State.setDt_dt (s : State) (b : Byte) : (s.setDt b).dt = b := rfl
@[simp] theorem State.setDt_st (s : State) (b : Byte) : (s.setDt b).st = s.st := rfl
@[simp] theorem State.setDt_buz (s : State) (b : Byte) : (s.setDt b).buz = s.buz := rfl
@[simp] theorem State.setDt_run (s : State) (b : Byte) : (s.setDt b).run = s.run := rfl
@[simp] theorem State.setDt_fcause (s : State) (b : Byte) : (s.setDt b).fcause = s.fcause := rfl
@[simp] theorem State.setDt_finfo (s : State) (b : Byte) : (s.setDt b).finfo = s.finfo := rfl
@[simp] theorem State.setDt_font (s : State) (b : Byte) : (s.setDt b).font = s.font := rfl
@[simp] theorem State.setDt_keys (s : State) (b : Byte) : (s.setDt b).keys = s.keys := rfl
@[simp] theorem State.setDt_rndCount (s : State) (b : Byte) : (s.setDt b).rndCount = s.rndCount := rfl

/-! ## `setSt` -/

@[simp] theorem State.setSt_v (s : State) (b : Byte) : (s.setSt b).v = s.v := rfl
@[simp] theorem State.setSt_i (s : State) (b : Byte) : (s.setSt b).i = s.i := rfl
@[simp] theorem State.setSt_pc (s : State) (b : Byte) : (s.setSt b).pc = s.pc := rfl
@[simp] theorem State.setSt_stk (s : State) (b : Byte) : (s.setSt b).stk = s.stk := rfl
@[simp] theorem State.setSt_sp (s : State) (b : Byte) : (s.setSt b).sp = s.sp := rfl
@[simp] theorem State.setSt_mem (s : State) (b : Byte) : (s.setSt b).mem = s.mem := rfl
@[simp] theorem State.setSt_fb (s : State) (b : Byte) : (s.setSt b).fb = s.fb := rfl
@[simp] theorem State.setSt_dt (s : State) (b : Byte) : (s.setSt b).dt = s.dt := rfl
@[simp] theorem State.setSt_st (s : State) (b : Byte) : (s.setSt b).st = b := rfl
@[simp] theorem State.setSt_buz (s : State) (b : Byte) : (s.setSt b).buz = s.buz := rfl
@[simp] theorem State.setSt_run (s : State) (b : Byte) : (s.setSt b).run = s.run := rfl
@[simp] theorem State.setSt_fcause (s : State) (b : Byte) : (s.setSt b).fcause = s.fcause := rfl
@[simp] theorem State.setSt_finfo (s : State) (b : Byte) : (s.setSt b).finfo = s.finfo := rfl
@[simp] theorem State.setSt_font (s : State) (b : Byte) : (s.setSt b).font = s.font := rfl
@[simp] theorem State.setSt_keys (s : State) (b : Byte) : (s.setSt b).keys = s.keys := rfl
@[simp] theorem State.setSt_rndCount (s : State) (b : Byte) : (s.setSt b).rndCount = s.rndCount := rfl

/-! ## `setRun` -/

@[simp] theorem State.setRun_v (s : State) (r : RunState) : (s.setRun r).v = s.v := rfl
@[simp] theorem State.setRun_i (s : State) (r : RunState) : (s.setRun r).i = s.i := rfl
@[simp] theorem State.setRun_pc (s : State) (r : RunState) : (s.setRun r).pc = s.pc := rfl
@[simp] theorem State.setRun_stk (s : State) (r : RunState) : (s.setRun r).stk = s.stk := rfl
@[simp] theorem State.setRun_sp (s : State) (r : RunState) : (s.setRun r).sp = s.sp := rfl
@[simp] theorem State.setRun_mem (s : State) (r : RunState) : (s.setRun r).mem = s.mem := rfl
@[simp] theorem State.setRun_fb (s : State) (r : RunState) : (s.setRun r).fb = s.fb := rfl
@[simp] theorem State.setRun_dt (s : State) (r : RunState) : (s.setRun r).dt = s.dt := rfl
@[simp] theorem State.setRun_st (s : State) (r : RunState) : (s.setRun r).st = s.st := rfl
@[simp] theorem State.setRun_buz (s : State) (r : RunState) : (s.setRun r).buz = s.buz := rfl
@[simp] theorem State.setRun_run (s : State) (r : RunState) : (s.setRun r).run = r := rfl
@[simp] theorem State.setRun_fcause (s : State) (r : RunState) : (s.setRun r).fcause = s.fcause := rfl
@[simp] theorem State.setRun_finfo (s : State) (r : RunState) : (s.setRun r).finfo = s.finfo := rfl
@[simp] theorem State.setRun_font (s : State) (r : RunState) : (s.setRun r).font = s.font := rfl
@[simp] theorem State.setRun_keys (s : State) (r : RunState) : (s.setRun r).keys = s.keys := rfl
@[simp] theorem State.setRun_rndCount (s : State) (r : RunState) : (s.setRun r).rndCount = s.rndCount := rfl

/-! ## `setByte` -/

@[simp] theorem State.setByte_v (s : State) (a : Nat) (b : Byte) : (s.setByte a b).v = s.v := rfl
@[simp] theorem State.setByte_i (s : State) (a : Nat) (b : Byte) : (s.setByte a b).i = s.i := rfl
@[simp] theorem State.setByte_pc (s : State) (a : Nat) (b : Byte) : (s.setByte a b).pc = s.pc := rfl
@[simp] theorem State.setByte_stk (s : State) (a : Nat) (b : Byte) : (s.setByte a b).stk = s.stk := rfl
@[simp] theorem State.setByte_sp (s : State) (a : Nat) (b : Byte) : (s.setByte a b).sp = s.sp := rfl
@[simp] theorem State.setByte_mem (s : State) (a : Nat) (b : Byte) : (s.setByte a b).mem = Memory.write s.font s.mem a b := rfl
@[simp] theorem State.setByte_fb (s : State) (a : Nat) (b : Byte) : (s.setByte a b).fb = s.fb := rfl
@[simp] theorem State.setByte_dt (s : State) (a : Nat) (b : Byte) : (s.setByte a b).dt = s.dt := rfl
@[simp] theorem State.setByte_st (s : State) (a : Nat) (b : Byte) : (s.setByte a b).st = s.st := rfl
@[simp] theorem State.setByte_buz (s : State) (a : Nat) (b : Byte) : (s.setByte a b).buz = s.buz := rfl
@[simp] theorem State.setByte_run (s : State) (a : Nat) (b : Byte) : (s.setByte a b).run = s.run := rfl
@[simp] theorem State.setByte_fcause (s : State) (a : Nat) (b : Byte) : (s.setByte a b).fcause = s.fcause := rfl
@[simp] theorem State.setByte_finfo (s : State) (a : Nat) (b : Byte) : (s.setByte a b).finfo = s.finfo := rfl
@[simp] theorem State.setByte_font (s : State) (a : Nat) (b : Byte) : (s.setByte a b).font = s.font := rfl
@[simp] theorem State.setByte_keys (s : State) (a : Nat) (b : Byte) : (s.setByte a b).keys = s.keys := rfl
@[simp] theorem State.setByte_rndCount (s : State) (a : Nat) (b : Byte) : (s.setByte a b).rndCount = s.rndCount := rfl

/-! ## `clearDisplay` -/

@[simp] theorem State.clearDisplay_v (s : State) : (s.clearDisplay).v = s.v := rfl
@[simp] theorem State.clearDisplay_i (s : State) : (s.clearDisplay).i = s.i := rfl
@[simp] theorem State.clearDisplay_pc (s : State) : (s.clearDisplay).pc = s.pc := rfl
@[simp] theorem State.clearDisplay_stk (s : State) : (s.clearDisplay).stk = s.stk := rfl
@[simp] theorem State.clearDisplay_sp (s : State) : (s.clearDisplay).sp = s.sp := rfl
@[simp] theorem State.clearDisplay_mem (s : State) : (s.clearDisplay).mem = s.mem := rfl
@[simp] theorem State.clearDisplay_fb (s : State) : (s.clearDisplay).fb = Vector.replicate 32 0 := rfl
@[simp] theorem State.clearDisplay_dt (s : State) : (s.clearDisplay).dt = s.dt := rfl
@[simp] theorem State.clearDisplay_st (s : State) : (s.clearDisplay).st = s.st := rfl
@[simp] theorem State.clearDisplay_buz (s : State) : (s.clearDisplay).buz = s.buz := rfl
@[simp] theorem State.clearDisplay_run (s : State) : (s.clearDisplay).run = s.run := rfl
@[simp] theorem State.clearDisplay_fcause (s : State) : (s.clearDisplay).fcause = s.fcause := rfl
@[simp] theorem State.clearDisplay_finfo (s : State) : (s.clearDisplay).finfo = s.finfo := rfl
@[simp] theorem State.clearDisplay_font (s : State) : (s.clearDisplay).font = s.font := rfl
@[simp] theorem State.clearDisplay_keys (s : State) : (s.clearDisplay).keys = s.keys := rfl
@[simp] theorem State.clearDisplay_rndCount (s : State) : (s.clearDisplay).rndCount = s.rndCount := rfl

/-! ## `countSample` -/

@[simp] theorem State.countSample_v (s : State) : (s.countSample).v = s.v := rfl
@[simp] theorem State.countSample_i (s : State) : (s.countSample).i = s.i := rfl
@[simp] theorem State.countSample_pc (s : State) : (s.countSample).pc = s.pc := rfl
@[simp] theorem State.countSample_stk (s : State) : (s.countSample).stk = s.stk := rfl
@[simp] theorem State.countSample_sp (s : State) : (s.countSample).sp = s.sp := rfl
@[simp] theorem State.countSample_mem (s : State) : (s.countSample).mem = s.mem := rfl
@[simp] theorem State.countSample_fb (s : State) : (s.countSample).fb = s.fb := rfl
@[simp] theorem State.countSample_dt (s : State) : (s.countSample).dt = s.dt := rfl
@[simp] theorem State.countSample_st (s : State) : (s.countSample).st = s.st := rfl
@[simp] theorem State.countSample_buz (s : State) : (s.countSample).buz = s.buz := rfl
@[simp] theorem State.countSample_run (s : State) : (s.countSample).run = s.run := rfl
@[simp] theorem State.countSample_fcause (s : State) : (s.countSample).fcause = s.fcause := rfl
@[simp] theorem State.countSample_finfo (s : State) : (s.countSample).finfo = s.finfo := rfl
@[simp] theorem State.countSample_font (s : State) : (s.countSample).font = s.font := rfl
@[simp] theorem State.countSample_keys (s : State) : (s.countSample).keys = s.keys := rfl
@[simp] theorem State.countSample_rndCount (s : State) : (s.countSample).rndCount = s.rndCount + 1 := rfl

/-! ## `enterFault` -/

@[simp] theorem State.enterFault_v (s : State) (e : Cause) (info : Nat) : (s.enterFault e info).v = s.v := rfl
@[simp] theorem State.enterFault_i (s : State) (e : Cause) (info : Nat) : (s.enterFault e info).i = s.i := rfl
@[simp] theorem State.enterFault_pc (s : State) (e : Cause) (info : Nat) : (s.enterFault e info).pc = s.pc := rfl
@[simp] theorem State.enterFault_stk (s : State) (e : Cause) (info : Nat) : (s.enterFault e info).stk = s.stk := rfl
@[simp] theorem State.enterFault_sp (s : State) (e : Cause) (info : Nat) : (s.enterFault e info).sp = s.sp := rfl
@[simp] theorem State.enterFault_mem (s : State) (e : Cause) (info : Nat) : (s.enterFault e info).mem = s.mem := rfl
@[simp] theorem State.enterFault_fb (s : State) (e : Cause) (info : Nat) : (s.enterFault e info).fb = s.fb := rfl
@[simp] theorem State.enterFault_dt (s : State) (e : Cause) (info : Nat) : (s.enterFault e info).dt = s.dt := rfl
@[simp] theorem State.enterFault_st (s : State) (e : Cause) (info : Nat) : (s.enterFault e info).st = s.st := rfl
@[simp] theorem State.enterFault_buz (s : State) (e : Cause) (info : Nat) : (s.enterFault e info).buz = s.buz := rfl
@[simp] theorem State.enterFault_run (s : State) (e : Cause) (info : Nat) : (s.enterFault e info).run = .faulted := rfl
@[simp] theorem State.enterFault_fcause (s : State) (e : Cause) (info : Nat) : (s.enterFault e info).fcause = e.code := rfl
@[simp] theorem State.enterFault_finfo (s : State) (e : Cause) (info : Nat) : (s.enterFault e info).finfo = BitVec.ofNat 32 info := rfl
@[simp] theorem State.enterFault_font (s : State) (e : Cause) (info : Nat) : (s.enterFault e info).font = s.font := rfl
@[simp] theorem State.enterFault_keys (s : State) (e : Cause) (info : Nat) : (s.enterFault e info).keys = s.keys := rfl
@[simp] theorem State.enterFault_rndCount (s : State) (e : Cause) (info : Nat) : (s.enterFault e info).rndCount = s.rndCount := rfl

/-! ## `flipPixel` -/

@[simp] theorem State.flipPixel_v (s : State) (x y : Nat) : (s.flipPixel x y).v = s.v := by
  unfold State.flipPixel; split <;> rfl
@[simp] theorem State.flipPixel_i (s : State) (x y : Nat) : (s.flipPixel x y).i = s.i := by
  unfold State.flipPixel; split <;> rfl
@[simp] theorem State.flipPixel_pc (s : State) (x y : Nat) : (s.flipPixel x y).pc = s.pc := by
  unfold State.flipPixel; split <;> rfl
@[simp] theorem State.flipPixel_stk (s : State) (x y : Nat) : (s.flipPixel x y).stk = s.stk := by
  unfold State.flipPixel; split <;> rfl
@[simp] theorem State.flipPixel_sp (s : State) (x y : Nat) : (s.flipPixel x y).sp = s.sp := by
  unfold State.flipPixel; split <;> rfl
@[simp] theorem State.flipPixel_mem (s : State) (x y : Nat) : (s.flipPixel x y).mem = s.mem := by
  unfold State.flipPixel; split <;> rfl
@[simp] theorem State.flipPixel_dt (s : State) (x y : Nat) : (s.flipPixel x y).dt = s.dt := by
  unfold State.flipPixel; split <;> rfl
@[simp] theorem State.flipPixel_st (s : State) (x y : Nat) : (s.flipPixel x y).st = s.st := by
  unfold State.flipPixel; split <;> rfl
@[simp] theorem State.flipPixel_buz (s : State) (x y : Nat) : (s.flipPixel x y).buz = s.buz := by
  unfold State.flipPixel; split <;> rfl
@[simp] theorem State.flipPixel_run (s : State) (x y : Nat) : (s.flipPixel x y).run = s.run := by
  unfold State.flipPixel; split <;> rfl
@[simp] theorem State.flipPixel_fcause (s : State) (x y : Nat) : (s.flipPixel x y).fcause = s.fcause := by
  unfold State.flipPixel; split <;> rfl
@[simp] theorem State.flipPixel_finfo (s : State) (x y : Nat) : (s.flipPixel x y).finfo = s.finfo := by
  unfold State.flipPixel; split <;> rfl
@[simp] theorem State.flipPixel_font (s : State) (x y : Nat) : (s.flipPixel x y).font = s.font := by
  unfold State.flipPixel; split <;> rfl
@[simp] theorem State.flipPixel_keys (s : State) (x y : Nat) : (s.flipPixel x y).keys = s.keys := by
  unfold State.flipPixel; split <;> rfl
@[simp] theorem State.flipPixel_rndCount (s : State) (x y : Nat) : (s.flipPixel x y).rndCount = s.rndCount := by
  unfold State.flipPixel; split <;> rfl

/-! ## Registers, bytes, pixels and keys after each update -/

@[simp] theorem State.setPc_reg (s : State) (w : Word) (z : Nibble) : (s.setPc w).reg z = s.reg z := rfl
@[simp] theorem State.setI_reg (s : State) (w : Word) (z : Nibble) : (s.setI w).reg z = s.reg z := rfl
@[simp] theorem State.setDt_reg (s : State) (b : Byte) (z : Nibble) : (s.setDt b).reg z = s.reg z := rfl
@[simp] theorem State.setSt_reg (s : State) (b : Byte) (z : Nibble) : (s.setSt b).reg z = s.reg z := rfl
@[simp] theorem State.setRun_reg (s : State) (r : RunState) (z : Nibble) : (s.setRun r).reg z = s.reg z := rfl
@[simp] theorem State.setByte_reg (s : State) (a : Nat) (b : Byte) (z : Nibble) : (s.setByte a b).reg z = s.reg z := rfl
@[simp] theorem State.clearDisplay_reg (s : State) (z : Nibble) : (s.clearDisplay).reg z = s.reg z := rfl
@[simp] theorem State.countSample_reg (s : State) (z : Nibble) : (s.countSample).reg z = s.reg z := rfl
@[simp] theorem State.enterFault_reg (s : State) (e : Cause) (info : Nat) (z : Nibble) : (s.enterFault e info).reg z = s.reg z := rfl
@[simp] theorem State.flipPixel_reg (s : State) (x y : Nat) (z : Nibble) : (s.flipPixel x y).reg z = s.reg z := by
  unfold State.flipPixel; split <;> rfl

@[simp] theorem State.setReg_byteAt (s : State) (x : Nibble) (b : Byte) (c : Nat) : (s.setReg x b).byteAt c = s.byteAt c := rfl
@[simp] theorem State.setPc_byteAt (s : State) (w : Word) (c : Nat) : (s.setPc w).byteAt c = s.byteAt c := rfl
@[simp] theorem State.setI_byteAt (s : State) (w : Word) (c : Nat) : (s.setI w).byteAt c = s.byteAt c := rfl
@[simp] theorem State.setDt_byteAt (s : State) (b : Byte) (c : Nat) : (s.setDt b).byteAt c = s.byteAt c := rfl
@[simp] theorem State.setSt_byteAt (s : State) (b : Byte) (c : Nat) : (s.setSt b).byteAt c = s.byteAt c := rfl
@[simp] theorem State.setRun_byteAt (s : State) (r : RunState) (c : Nat) : (s.setRun r).byteAt c = s.byteAt c := rfl
@[simp] theorem State.clearDisplay_byteAt (s : State) (c : Nat) : (s.clearDisplay).byteAt c = s.byteAt c := rfl
@[simp] theorem State.countSample_byteAt (s : State) (c : Nat) : (s.countSample).byteAt c = s.byteAt c := rfl
@[simp] theorem State.enterFault_byteAt (s : State) (e : Cause) (info : Nat) (c : Nat) : (s.enterFault e info).byteAt c = s.byteAt c := rfl
@[simp] theorem State.flipPixel_byteAt (s : State) (x y : Nat) (c : Nat) : (s.flipPixel x y).byteAt c = s.byteAt c := by
  unfold State.flipPixel; split <;> rfl

@[simp] theorem State.setReg_pixel (s : State) (x : Nibble) (b : Byte) (p q : Nat) : (s.setReg x b).pixel p q = s.pixel p q := rfl
@[simp] theorem State.setPc_pixel (s : State) (w : Word) (p q : Nat) : (s.setPc w).pixel p q = s.pixel p q := rfl
@[simp] theorem State.setI_pixel (s : State) (w : Word) (p q : Nat) : (s.setI w).pixel p q = s.pixel p q := rfl
@[simp] theorem State.setDt_pixel (s : State) (b : Byte) (p q : Nat) : (s.setDt b).pixel p q = s.pixel p q := rfl
@[simp] theorem State.setSt_pixel (s : State) (b : Byte) (p q : Nat) : (s.setSt b).pixel p q = s.pixel p q := rfl
@[simp] theorem State.setRun_pixel (s : State) (r : RunState) (p q : Nat) : (s.setRun r).pixel p q = s.pixel p q := rfl
@[simp] theorem State.setByte_pixel (s : State) (a : Nat) (b : Byte) (p q : Nat) : (s.setByte a b).pixel p q = s.pixel p q := rfl
@[simp] theorem State.countSample_pixel (s : State) (p q : Nat) : (s.countSample).pixel p q = s.pixel p q := rfl
@[simp] theorem State.enterFault_pixel (s : State) (e : Cause) (info : Nat) (p q : Nat) : (s.enterFault e info).pixel p q = s.pixel p q := rfl

@[simp] theorem State.setReg_pressed (s : State) (x : Nibble) (b : Byte) (k : Nat) : (s.setReg x b).pressed k = s.pressed k := rfl
@[simp] theorem State.setPc_pressed (s : State) (w : Word) (k : Nat) : (s.setPc w).pressed k = s.pressed k := rfl
@[simp] theorem State.setI_pressed (s : State) (w : Word) (k : Nat) : (s.setI w).pressed k = s.pressed k := rfl
@[simp] theorem State.setDt_pressed (s : State) (b : Byte) (k : Nat) : (s.setDt b).pressed k = s.pressed k := rfl
@[simp] theorem State.setSt_pressed (s : State) (b : Byte) (k : Nat) : (s.setSt b).pressed k = s.pressed k := rfl
@[simp] theorem State.setRun_pressed (s : State) (r : RunState) (k : Nat) : (s.setRun r).pressed k = s.pressed k := rfl
@[simp] theorem State.setByte_pressed (s : State) (a : Nat) (b : Byte) (k : Nat) : (s.setByte a b).pressed k = s.pressed k := rfl
@[simp] theorem State.clearDisplay_pressed (s : State) (k : Nat) : (s.clearDisplay).pressed k = s.pressed k := rfl
@[simp] theorem State.countSample_pressed (s : State) (k : Nat) : (s.countSample).pressed k = s.pressed k := rfl
@[simp] theorem State.enterFault_pressed (s : State) (e : Cause) (info : Nat) (k : Nat) : (s.enterFault e info).pressed k = s.pressed k := rfl
@[simp] theorem State.flipPixel_pressed (s : State) (x y : Nat) (k : Nat) : (s.flipPixel x y).pressed k = s.pressed k := by
  unfold State.flipPixel; split <;> rfl

@[simp] theorem State.setReg_lowestPressed (s : State) (x : Nibble) (b : Byte) : (s.setReg x b).lowestPressed = s.lowestPressed := rfl
@[simp] theorem State.setPc_lowestPressed (s : State) (w : Word) : (s.setPc w).lowestPressed = s.lowestPressed := rfl
@[simp] theorem State.setI_lowestPressed (s : State) (w : Word) : (s.setI w).lowestPressed = s.lowestPressed := rfl
@[simp] theorem State.setDt_lowestPressed (s : State) (b : Byte) : (s.setDt b).lowestPressed = s.lowestPressed := rfl
@[simp] theorem State.setSt_lowestPressed (s : State) (b : Byte) : (s.setSt b).lowestPressed = s.lowestPressed := rfl
@[simp] theorem State.setRun_lowestPressed (s : State) (r : RunState) : (s.setRun r).lowestPressed = s.lowestPressed := rfl
@[simp] theorem State.setByte_lowestPressed (s : State) (a : Nat) (b : Byte) : (s.setByte a b).lowestPressed = s.lowestPressed := rfl
@[simp] theorem State.clearDisplay_lowestPressed (s : State) : (s.clearDisplay).lowestPressed = s.lowestPressed := rfl
@[simp] theorem State.countSample_lowestPressed (s : State) : (s.countSample).lowestPressed = s.lowestPressed := rfl
@[simp] theorem State.enterFault_lowestPressed (s : State) (e : Cause) (info : Nat) : (s.enterFault e info).lowestPressed = s.lowestPressed := rfl
@[simp] theorem State.flipPixel_lowestPressed (s : State) (x y : Nat) : (s.flipPixel x y).lowestPressed = s.lowestPressed := by
  unfold State.flipPixel; split <;> rfl


@[simp] theorem State.setReg_reg_same (s : State) (x : Nibble) (b : Byte) : (s.setReg x b).reg x = b := by
  simp [State.reg]

theorem State.setReg_reg_ne (s : State) {x z : Nibble} (b : Byte) (h : z ≠ x) : (s.setReg x b).reg z = s.reg z := by
  have hne : x.toNat ≠ z.toNat := fun e => h (BitVec.eq_of_toNat_eq e.symm)
  simp [State.reg, Vector.getElem_set_ne, hne]

theorem State.setReg_reg (s : State) (x z : Nibble) (b : Byte) :
    (s.setReg x b).reg z = if z = x then b else s.reg z := by
  split
  · subst z; simp
  · exact s.setReg_reg_ne b ‹_›

@[simp] theorem State.clearDisplay_pixel (s : State) (p q : Nat) : s.clearDisplay.pixel p q = false := by
  simp [State.pixel]

/-- A flip inverts exactly its own pixel. -/
theorem State.flipPixel_pixel (s : State) {x y : Nat} (hx : x < 64) (hy : y < 32) (p q : Nat) :
    (s.flipPixel x y).pixel p q = if p = x ∧ q = y then !s.pixel x y else s.pixel p q := by
  unfold State.pixel State.flipPixel
  by_cases hq : q < 32
  · by_cases hqy : q = y
    · subst hqy
      by_cases hp : p = x
      · subst hp; simp [hy, hx]
      · have : x ≠ p := Ne.symm hp
        simp [hy, hp, BitVec.getLsbD_xor, BitVec.getLsbD_twoPow, this]
    · have : y ≠ q := Ne.symm hqy
      simp [hy, hq, hqy, Vector.getElem_set_ne, this]
  · have : q ≠ y := by omega
    simp [hq, this]

end Sys2Proof.Machine
end

