-- ==== Sys2Proof/Laws/Memory.lean ====
section
/-! SUPPORT. Memory as data: a read after a write, and the canonical form, which every memory operation keeps. -/

namespace Sys2Proof.Machine

theorem Memory.lookup_cons (d : Host.Cell) (m : Memory) (a : Nat) :
    Memory.lookup (d :: m) a = if d.1 = a then some d.2 else Memory.lookup m a := rfl

theorem Memory.lookup_erase (m : Memory) (a c : Nat) :
    Memory.lookup (Memory.erase m a) c = if c = a then none else Memory.lookup m c := by
  induction m with
  | nil => simp [Memory.erase, Memory.lookup]
  | cons d m ih =>
    simp only [Memory.erase] at ih ⊢
    by_cases hd : d.1 = a
    · by_cases hc : c = a
      · simpa [hd, hc] using ih
      · have : ¬ a = c := fun e => hc e.symm
        simpa [hd, hc, Memory.lookup, this] using ih
    · by_cases hdc : d.1 = c
      · have : ¬ c = a := fun e => hd (hdc.trans e)
        simp [Memory.lookup, hdc, this]
      · simpa [hd, hdc, Memory.lookup] using ih

theorem Memory.lookup_insert (m : Memory) (a c : Nat) (b : Byte) (hm : Memory.lookup m a = none) :
    Memory.lookup (Memory.insert m a b) c = if c = a then some b else Memory.lookup m c := by
  induction m with
  | nil =>
    by_cases hc : c = a
    · simp [Memory.insert, Memory.lookup, hc]
    · simp [Memory.insert, Memory.lookup, hc, Ne.symm hc]
  | cons d m ih =>
    have hd : ¬ d.1 = a := by
      intro e; simp [Memory.lookup, e] at hm
    have hm' : Memory.lookup m a = none := by simpa [Memory.lookup, hd] using hm
    unfold Memory.insert
    split
    · by_cases hdc : d.1 = c
      · have : ¬ c = a := fun e => hd (hdc.trans e)
        simp [Memory.lookup, hdc, this]
      · simp [Memory.lookup, hdc, ih hm']
    · by_cases hc : c = a
      · simp [Memory.lookup, hc]
      · simp [Memory.lookup, hc, Ne.symm hc]

/-- A read after a write: the byte written at its own address, what was there before at every other. -/
theorem Memory.read_write (font : Config.Font) (m : Memory) (a c : Nat) (b : Byte) :
    Memory.read font (Memory.write font m a b) c = if c = a then b else Memory.read font m c := by
  unfold Memory.read Memory.write
  split
  · rw [Memory.lookup_erase]
    by_cases hc : c = a <;> simp [*]
  · rw [Memory.lookup_insert _ _ _ _ (by simp [Memory.lookup_erase]), Memory.lookup_erase]
    by_cases hc : c = a <;> simp [hc]

/-! ## The canonical form -/

theorem Memory.mem_insert {m : Memory} {a : Nat} {b : Byte} {c : Host.Cell} :
    c ∈ Memory.insert m a b ↔ c = (a, b) ∨ c ∈ m := by
  induction m with
  | nil => simp [Memory.insert]
  | cons d m ih =>
    unfold Memory.insert
    split
    · rw [List.mem_cons, ih, List.mem_cons]; tauto
    · simp

theorem Memory.insert_rising {m : Memory} {a : Nat} {b : Byte} (hm : (m.map Prod.fst).Pairwise (· < ·))
    (ha : ∀ c ∈ m, c.1 ≠ a) : ((Memory.insert m a b).map Prod.fst).Pairwise (· < ·) := by
  induction m with
  | nil => simp [Memory.insert]
  | cons d m ih =>
    rw [List.map_cons, List.pairwise_cons] at hm
    unfold Memory.insert
    split
    · rw [List.map_cons, List.pairwise_cons]
      refine ⟨fun x hx => ?_, ih hm.2 fun c hc => ha c (List.mem_cons_of_mem _ hc)⟩
      obtain ⟨c, hc, rfl⟩ := List.mem_map.1 hx
      rcases Memory.mem_insert.1 hc with rfl | hc
      · assumption
      · exact hm.1 _ (List.mem_map_of_mem hc)
    · have hda : a < d.1 := by have := ha d List.mem_cons_self; omega
      rw [List.map_cons, List.pairwise_cons, List.map_cons]
      refine ⟨fun x hx => ?_, List.pairwise_cons.2 hm⟩
      rcases List.mem_cons.1 hx with rfl | hx
      · exact hda
      · exact lt_trans hda (hm.1 _ hx)

/-- A write at an existing address keeps the canonical form. -/
theorem Memory.write_wf {font : Config.Font} {m : Memory} {a : Nat} {b : Byte} (hm : Memory.wf font m)
    (ha : a ≤ Config.addrMax) : Memory.wf font (Memory.write font m a b) := by
  obtain ⟨hs, hv⟩ := hm
  have hes : ((Memory.erase m a).map Prod.fst).Pairwise (· < ·) :=
    hs.sublist (List.filter_sublist.map _)
  have hev : ∀ c ∈ Memory.erase m a, c ∈ m ∧ c.1 ≠ a := fun c hc => by simpa [Memory.erase] using hc
  unfold Memory.write
  split
  · exact ⟨hes, fun c hc => hv c (hev c hc).1⟩
  · refine ⟨Memory.insert_rising hes fun c hc => (hev c hc).2, fun c hc => ?_⟩
    rcases Memory.mem_insert.1 hc with rfl | hc
    · exact ⟨ha, by assumption⟩
    · exact hv c (hev c hc).1

/-- Two canonical memories that read the same everywhere are equal data. -/
theorem Memory.ext_of_wf {font : Config.Font} {m m' : Memory} (hm : Memory.wf font m) (hm' : Memory.wf font m')
    (h : ∀ a, Memory.read font m a = Memory.read font m' a) : m = m' := by
  have look : ∀ {n : Memory}, Memory.wf font n → ∀ a b, (a, b) ∈ n ↔
      (Memory.read font n a = b ∧ b ≠ Memory.unlisted font a) := by
    intro n hn a b
    obtain ⟨hs, hv⟩ := hn
    have key : ∀ n : Memory, (n.map Prod.fst).Pairwise (· < ·) → ((a, b) ∈ n ↔ Memory.lookup n a = some b) := by
      intro n hs
      induction n with
      | nil => simp [Memory.lookup]
      | cons d n ih =>
        rw [List.map_cons, List.pairwise_cons] at hs
        rw [List.mem_cons, ih hs.2]
        rw [Memory.lookup_cons]
        by_cases hd : d.1 = a
        · rw [if_pos hd]
          constructor
          · rintro (rfl | hl)
            · rfl
            · have := hs.1 a (List.mem_map.2 ⟨(a, b), (ih hs.2).2 hl, rfl⟩); omega
          · intro e; left; cases d; simp_all
        · rw [if_neg hd]
          constructor
          · rintro (rfl | hl)
            · exact absurd rfl hd
            · exact hl
          · exact Or.inr
    rw [key n hs]
    unfold Memory.read
    constructor
    · intro e
      exact ⟨by simp [e], (hv (a, b) ((key n hs).2 e)).2⟩
    · rintro ⟨e, hb⟩
      cases hl : Memory.lookup n a with
      | none => rw [hl] at e; exact absurd e.symm hb
      | some d => rw [hl] at e; simpa using e
  have hmem : ∀ c, c ∈ m ↔ c ∈ m' := by
    rintro ⟨a, b⟩
    rw [look hm, look hm', h a]
  have nodup : ∀ n : Memory, Memory.wf font n → n.Pairwise (fun c d => c.1 < d.1) := fun n hn => by
    simpa [List.pairwise_map] using hn.1
  refine List.Perm.eq_of_pairwise (le := fun c d : Host.Cell => c.1 < d.1) ?_ (nodup m hm) (nodup m' hm') ?_
  · intro c d _ _ hcd hdc; omega
  · refine (List.perm_ext_iff_of_nodup ?_ ?_).2 hmem
    · exact (nodup m hm).imp fun hlt e => by subst e; omega
    · exact (nodup m' hm').imp fun hlt e => by subst e; omega

/-! ## Bytes of the state -/

theorem State.setByte_byteAt (s : State) (a c : Nat) (b : Byte) :
    (s.setByte a b).byteAt c = if c = a then b else s.byteAt c := Memory.read_write _ _ _ _ _

@[simp] theorem State.setByte_byteAt_same (s : State) (a : Nat) (b : Byte) : (s.setByte a b).byteAt a = b := by
  simp [State.setByte_byteAt]

theorem State.setByte_byteAt_ne (s : State) {a c : Nat} (b : Byte) (h : c ≠ a) :
    (s.setByte a b).byteAt c = s.byteAt c := by
  simp [State.setByte_byteAt, h]

/-- Memory with nothing listed reads as the reset contents (10_state.md R41). -/
theorem State.resetWith_byteAt (font : Config.Font) (a : Nat) :
    (State.resetWith font).byteAt a = Memory.unlisted font a := rfl

end Sys2Proof.Machine
end

