-- ==== Sys2Proof/Laws/Ops.lean ====
section
/-! SUPPORT. One lemma per shared operation that says once what it can do: when it completes and with what, and when it raises
and what. Callers cite these and do not unfold the operations. -/

namespace Sys2Proof.Machine

/-! ## Sequencing -/

@[simp] theorem Exec.bind_done {α β : Type} (a : α) (s : State) (f : α → State → Exec β) :
    (Exec.done a s).bind f = f a s := rfl

@[simp] theorem Exec.bind_raised {α β : Type} (s : State) (f : α → State → Exec β) :
    (Exec.raised (α := α) s).bind f = .raised s := rfl

@[simp] theorem Exec.outcome_done {α : Type} (a : α) (s : State) : (Exec.done a s).outcome = .next s := rfl

@[simp] theorem Exec.outcome_raised {α : Type} (s : State) : (Exec.raised (α := α) s).outcome = .next s := rfl

@[simp] theorem raise_eq {α : Type} (e : Cause) (info : Nat) (s : State) :
    raise (α := α) e info s = .raised (s.enterFault e info) := rfl

/-- Both ways a part of an operation can end satisfy the property. -/
def Exec.Ends {α : Type} (r : Exec α) (P : State → Prop) : Prop :=
  match r with
  | .done _ s => P s
  | .raised s => P s

@[simp] theorem Exec.ends_done {α : Type} (a : α) (s : State) (P : State → Prop) : (Exec.done a s).Ends P ↔ P s := Iff.rfl

@[simp] theorem Exec.ends_raised {α : Type} (s : State) (P : State → Prop) :
    (Exec.raised (α := α) s).Ends P ↔ P s := Iff.rfl

theorem Exec.Ends.bind {α β : Type} {P Q : State → Prop} {r : Exec α} {f : α → State → Exec β} (h : r.Ends Q)
    (hf : ∀ a s, Q s → (f a s).Ends P) (hQ : ∀ s, Q s → P s) : (r.bind f).Ends P := by
  cases r with
  | done a s => exact hf a s h
  | raised s => exact hQ s h

theorem Exec.Ends.mono {α : Type} {P Q : State → Prop} {r : Exec α} (h : r.Ends P) (hPQ : ∀ s, P s → Q s) : r.Ends Q := by
  cases r with
  | done a s => exact hPQ s h
  | raised s => exact hPQ s h

/-- An operation's outcome is always a next state, and it is the one its parts end in. -/
theorem Exec.outcome_eq_next {α : Type} {r : Exec α} {t : State} (h : r.outcome = .next t) {P : State → Prop}
    (hr : r.Ends P) : P t := by
  cases r <;> (cases h; exact hr)

/-! ## Checked accesses -/

theorem memRead_done {a : Nat} (s : State) (h : a ≤ 0xFFF) : memRead a s = .done (s.byteAt a) s := if_pos h

theorem memRead_raised {a : Nat} (s : State) (h : 0xFFF < a) :
    memRead a s = .raised (s.enterFault .memOutOfRange a) := if_neg (by simp; omega)

theorem memWrite_done {a : Nat} (b : Byte) (s : State) (h : a ≤ 0xFFF) : memWrite a b s = .done () (s.setByte a b) :=
  if_pos h

theorem memWrite_raised {a : Nat} (b : Byte) (s : State) (h : 0xFFF < a) :
    memWrite a b s = .raised (s.enterFault .memOutOfRange a) := if_neg (by simp; omega)

theorem regRead_done {k : Nat} (s : State) (h : k < 16) : regRead k s = .done (s.reg (BitVec.ofNat 4 k)) s := if_pos h

theorem regRead_raised {k : Nat} (s : State) (h : 16 ≤ k) :
    regRead k s = .raised (s.enterFault .regIndexOutOfRange k) := if_neg (by omega)

theorem regWrite_done {k : Nat} (b : Byte) (s : State) (h : k < 16) :
    regWrite k b s = .done () (s.setReg (BitVec.ofNat 4 k) b) := if_pos h

theorem regWrite_raised {k : Nat} (b : Byte) (s : State) (h : 16 ≤ k) :
    regWrite k b s = .raised (s.enterFault .regIndexOutOfRange k) := if_neg (by omega)

theorem keyRead_done {k : Nat} (s : State) (h : k ≤ 15) : keyRead k s = .done (s.pressed k) s := if_pos h

theorem keyRead_raised {k : Nat} (s : State) (h : 15 < k) :
    keyRead k s = .raised (s.enterFault .keyIndexOutOfRange k) := if_neg (by omega)

/-! ## The stack -/

theorem push_done (w : Word) (info : Nat) (s : State) (h : s.sp.val < 16) :
    push w info s = .done () { s with stk := s.stk.set s.sp.val w h, sp := ⟨s.sp.val + 1, Nat.succ_lt_succ h⟩ } :=
  dif_pos h

theorem push_raised (w : Word) (info : Nat) (s : State) (h : s.sp.val = 16) :
    push w info s = .raised (s.enterFault .stackOverflow info) := dif_neg (by omega)

theorem pop_done (s : State) (h : 0 < s.sp.val) :
    pop s = .done (s.stk[s.sp.val - 1]'(by have := s.sp.isLt; omega))
      { s with sp := ⟨s.sp.val - 1, by have := s.sp.isLt; omega⟩ } := dif_pos h

theorem pop_raised (s : State) (h : s.sp.val = 0) : pop s = .raised (s.enterFault .stackUnderflow 0xEE) :=
  dif_neg (by omega)

/-! ## States that differ in memory or in registers alone -/

/-- `t` is `s` with another memory. -/
def State.MemOnly (s t : State) : Prop := ∃ m, t = { s with mem := m }

theorem State.MemOnly.refl (s : State) : s.MemOnly s := ⟨s.mem, rfl⟩

theorem State.MemOnly.trans {s t u : State} (h : s.MemOnly t) (h' : t.MemOnly u) : s.MemOnly u := by
  obtain ⟨m, rfl⟩ := h; obtain ⟨m', rfl⟩ := h'; exact ⟨m', rfl⟩

theorem State.memOnly_setByte (s : State) (a : Nat) (b : Byte) : s.MemOnly (s.setByte a b) := ⟨_, rfl⟩

/-- `t` is `s` with other registers. -/
def State.RegsOnly (s t : State) : Prop := ∃ v, t = { s with v := v }

theorem State.RegsOnly.refl (s : State) : s.RegsOnly s := ⟨s.v, rfl⟩

theorem State.RegsOnly.trans {s t u : State} (h : s.RegsOnly t) (h' : t.RegsOnly u) : s.RegsOnly u := by
  obtain ⟨m, rfl⟩ := h; obtain ⟨m', rfl⟩ := h'; exact ⟨m', rfl⟩

theorem State.regsOnly_setReg (s : State) (x : Nibble) (b : Byte) : s.RegsOnly (s.setReg x b) := ⟨_, rfl⟩

/-- `t` is `s` with another framebuffer. -/
def State.DisplayOnly (s t : State) : Prop := ∃ fb, t = { s with fb := fb }

theorem State.DisplayOnly.refl (s : State) : s.DisplayOnly s := ⟨s.fb, rfl⟩

theorem State.DisplayOnly.trans {s t u : State} (h : s.DisplayOnly t) (h' : t.DisplayOnly u) : s.DisplayOnly u := by
  obtain ⟨m, rfl⟩ := h; obtain ⟨m', rfl⟩ := h'; exact ⟨m', rfl⟩

theorem State.displayOnly_flipPixel (s : State) (x y : Nat) : s.DisplayOnly (s.flipPixel x y) := by
  unfold State.flipPixel
  split
  · exact ⟨_, rfl⟩
  · exact .refl s

/-! ## Memory transfers -/

theorem dataAddr_eq (s : State) (k : Nat) : dataAddr s k = s.i.toNat + k := rfl

@[simp] theorem dataAddr_setByte (s : State) (a : Nat) (b : Byte) (k : Nat) :
    dataAddr (s.setByte a b) k = dataAddr s k := rfl

@[simp] theorem dataAddr_setReg (s : State) (x : Nibble) (b : Byte) (k : Nat) :
    dataAddr (s.setReg x b) k = dataAddr s k := rfl

/-- Bytes that all fit are stored one after the other, and no other byte changes. -/
theorem storeBytes_done (bs : List Byte) : ∀ (a : Nat) (s : State), a + bs.length ≤ 0x1000 → ∃ t,
    storeBytes bs a s = .done () t ∧ s.MemOnly t ∧
      ∀ c, t.byteAt c = if a ≤ c then (bs[c - a]?).getD (s.byteAt c) else s.byteAt c := by
  induction bs with
  | nil => intro a s _; exact ⟨s, rfl, .refl s, fun c => by simp⟩
  | cons b bs ih =>
    intro a s h
    rw [List.length_cons] at h
    obtain ⟨t, ht, hm, hb⟩ := ih (a + 1) (s.setByte a b) (by omega)
    refine ⟨t, ?_, (s.memOnly_setByte a b).trans hm, fun c => ?_⟩
    · rw [storeBytes, memWrite_done b s (by omega), Exec.bind_done, ht]
    · rw [hb c, State.setByte_byteAt]
      rcases Nat.lt_trichotomy c a with hc | hc | hc
      · rw [if_neg (by omega), if_neg (by omega), if_neg (by omega)]
      · subst hc; simp
      · rw [if_pos (by omega), if_neg (by omega), if_pos (by omega), show c - a = (c - (a + 1)) + 1 by omega,
          List.getElem?_cons_succ]

/-- Bytes that do not all fit: those that fit are stored, and the first address above 0xFFF is a MemOutOfRange. -/
theorem storeBytes_raised (bs : List Byte) : ∀ (a : Nat) (s : State), bs ≠ [] → 0x1000 < a + bs.length → ∃ t,
    storeBytes (bs.take (0x1000 - a)) a s = .done () t ∧
      storeBytes bs a s = .raised (t.enterFault .memOutOfRange (max a 0x1000)) := by
  induction bs with
  | nil => intro a s h; exact absurd rfl h
  | cons b bs ih =>
    intro a s _ h
    rw [List.length_cons] at h
    by_cases ha : a ≤ 0xFFF
    · have hne : bs ≠ [] := by rintro rfl; simp at h; omega
      obtain ⟨t, h1, h2⟩ := ih (a + 1) (s.setByte a b) hne (by omega)
      refine ⟨t, ?_, ?_⟩
      · rw [show 0x1000 - a = (0x1000 - (a + 1)) + 1 by omega, List.take_succ_cons, storeBytes, memWrite_done b s ha,
          Exec.bind_done, h1]
      · rw [storeBytes, memWrite_done b s ha, Exec.bind_done, h2, show max (a + 1) 0x1000 = max a 0x1000 by omega]
    · refine ⟨s, ?_, ?_⟩
      · rw [show 0x1000 - a = 0 by omega]; rfl
      · rw [storeBytes, memWrite_raised b s (by omega), Exec.bind_raised, show max a 0x1000 = a by omega]

/-- The bytes at the addresses of the registers from `k` up to `k + count` hold them, and the other bytes are as before. -/
structure StoredRange (s t : State) (k count : Nat) : Prop where
  stored : ∀ j, k ≤ j → j < k + count → t.byteAt (dataAddr s j) = s.reg (BitVec.ofNat 4 j)
  kept : ∀ c, (∀ j, k ≤ j → j < k + count → c ≠ dataAddr s j) → t.byteAt c = s.byteAt c

/-- Registers whose addresses all exist are stored in order, and no other byte changes. -/
theorem storeRegs_done : ∀ (count k : Nat) (s : State), k + count ≤ 16 →
    (∀ j, k ≤ j → j < k + count → dataAddr s j ≤ 0xFFF) → ∃ t,
    storeRegs count k s = .done () t ∧ s.MemOnly t ∧ StoredRange s t k count := by
  intro count
  induction count with
  | zero => intro k s _ _; exact ⟨s, rfl, .refl s, fun j h1 h2 => by omega, fun _ _ => rfl⟩
  | succ count ih =>
    intro k s hk ha
    obtain ⟨t, ht, hm, hs⟩ := ih (k + 1) (s.setByte (dataAddr s k) (s.reg (BitVec.ofNat 4 k))) (by omega)
      (fun j h1 h2 => ha j (by omega) (by omega))
    have hinj : ∀ j, k + 1 ≤ j → dataAddr s k ≠ dataAddr s j := fun j hj => by
      rw [dataAddr_eq, dataAddr_eq]; omega
    refine ⟨t, ?_, (s.memOnly_setByte _ _).trans hm, fun j h1 h2 => ?_, fun c hc => ?_⟩
    · rw [storeRegs, regRead_done s (by omega), Exec.bind_done, memWrite_done _ _ (ha k le_rfl (by omega)), Exec.bind_done, ht]
    · rcases Nat.eq_or_lt_of_le h1 with e | e
      · subst e
        rw [hs.kept _ fun j h1 _ => hinj j h1, State.setByte_byteAt_same]
      · exact hs.stored j e (by omega)
    · rw [hs.kept c fun j h1 h2 => hc j (by omega) (by omega),
        State.setByte_byteAt_ne _ _ (hc k le_rfl (by omega))]

/-- The registers from `k` up to `k + count` hold the bytes at their addresses, and the others are as before. -/
def LoadedRange (s t : State) (k count : Nat) : Prop :=
  ∀ z : Nibble, t.reg z = if k ≤ z.toNat ∧ z.toNat < k + count then s.byteAt (dataAddr s z.toNat) else s.reg z

/-- Registers whose addresses all exist are loaded in order, and no other register changes. -/
theorem loadRegs_done : ∀ (count k : Nat) (s : State), k + count ≤ 16 → dataAddr s (k + count) ≤ 0x1000 → ∃ t,
    loadRegs count k s = .done () t ∧ s.RegsOnly t ∧ LoadedRange s t k count := by
  intro count
  induction count with
  | zero => intro k s _ _; exact ⟨s, rfl, .refl s, fun z => by rw [if_neg (by omega)]⟩
  | succ count ih =>
    intro k s hk ha
    obtain ⟨t, ht, hm, hb⟩ := ih (k + 1) (s.setReg (BitVec.ofNat 4 k) (s.byteAt (dataAddr s k))) (by omega)
      (by simp only [dataAddr, State.setReg_i] at *; omega)
    refine ⟨t, ?_, (s.regsOnly_setReg _ _).trans hm, fun z => ?_⟩
    · rw [loadRegs, memRead_done s (by simp only [dataAddr] at *; omega), Exec.bind_done, regWrite_done _ _ (by omega),
        Exec.bind_done, ht]
    · rw [hb z, State.setReg_reg]
      simp only [dataAddr_setReg, State.setReg_byteAt]
      have hz : z = BitVec.ofNat 4 k ↔ z.toNat = k := by
        rw [← BitVec.toNat_inj]; simp; omega
      by_cases hzk : z.toNat = k
      · rw [if_neg (by omega), if_pos (hz.2 hzk), if_pos (by omega), hzk]
      · rw [if_neg (fun e => hzk (hz.1 e))]
        by_cases hc : k + 1 ≤ z.toNat ∧ z.toNat < k + 1 + count
        · rw [if_pos hc, if_pos (by omega)]
        · rw [if_neg hc, if_neg (by omega)]

/-- Registers whose addresses do not all exist: those below the first missing address are loaded, and it is a
MemOutOfRange. -/
theorem loadRegs_raised : ∀ (count k n : Nat) (s : State), k + count ≤ 16 → n < count → 0xFFF < dataAddr s (k + n) →
    (∀ j < n, dataAddr s (k + j) ≤ 0xFFF) → ∃ t,
    loadRegs count k s = .raised (t.enterFault .memOutOfRange (dataAddr s (k + n))) ∧ s.RegsOnly t ∧
      LoadedRange s t k n := by
  intro count
  induction count with
  | zero => intro k n s _ h; omega
  | succ count ih =>
    intro k n s hk hn hbad hok
    cases n with
    | zero =>
      refine ⟨s, ?_, .refl s, fun z => by rw [if_neg (by omega)]⟩
      rw [Nat.add_zero] at hbad
      rw [loadRegs, memRead_raised s hbad]; rfl
    | succ n =>
      have h0 : dataAddr s k ≤ 0xFFF := hok 0 (by omega)
      obtain ⟨t, ht, hm, hb⟩ := ih (k + 1) n (s.setReg (BitVec.ofNat 4 k) (s.byteAt (dataAddr s k))) (by omega) (by omega)
        (by simp only [dataAddr, State.setReg_i] at *; omega)
        (fun j hj => by have := hok (j + 1) (by omega); simp only [dataAddr, State.setReg_i] at *; omega)
      refine ⟨t, ?_, (s.regsOnly_setReg _ _).trans hm, fun z => ?_⟩
      · rw [loadRegs, memRead_done s h0, Exec.bind_done, regWrite_done _ _ (by omega), Exec.bind_done, ht]
        rw [dataAddr_setReg, show k + 1 + n = k + (n + 1) by omega]
      · rw [hb z, State.setReg_reg]
        simp only [dataAddr_setReg, State.setReg_byteAt]
        have hz : z = BitVec.ofNat 4 k ↔ z.toNat = k := by
          rw [← BitVec.toNat_inj]; simp; omega
        by_cases hzk : z.toNat = k
        · rw [if_neg (by omega), if_pos (hz.2 hzk), if_pos (by omega), hzk]
        · rw [if_neg (fun e => hzk (hz.1 e))]
          by_cases hc : k + 1 ≤ z.toNat ∧ z.toNat < k + 1 + n
          · rw [if_pos hc, if_pos (by omega)]
          · rw [if_neg hc, if_neg (by omega)]

/-- Sprite bytes that all exist are read in order, and nothing changes. -/
theorem readSprite_done : ∀ (count k : Nat) (s : State), (∀ j < count, dataAddr s (k + j) ≤ 0xFFF) →
    readSprite count k s = .done ((List.range count).map fun j => s.byteAt (dataAddr s (k + j))) s := by
  intro count
  induction count with
  | zero => intro k s _; rfl
  | succ count ih =>
    intro k s h
    have h0 : dataAddr s k ≤ 0xFFF := h 0 (by omega)
    rw [readSprite, memRead_done s h0, Exec.bind_done,
      ih (k + 1) s (fun j hj => by have := h (j + 1) (by omega); rwa [show k + 1 + j = k + (j + 1) by omega]),
      Exec.bind_done, List.range_succ_eq_map, List.map_cons, List.map_map]
    congr 2
    exact List.map_congr_left fun j _ => by simp [Function.comp, Nat.add_assoc, Nat.add_comm 1 j]

/-- A sprite byte that does not exist is a MemOutOfRange at the first such address, and nothing else changes. -/
theorem readSprite_raised : ∀ (count k n : Nat) (s : State), n < count → 0xFFF < dataAddr s (k + n) →
    (∀ j < n, dataAddr s (k + j) ≤ 0xFFF) →
    readSprite count k s = .raised (s.enterFault .memOutOfRange (dataAddr s (k + n))) := by
  intro count
  induction count with
  | zero => intro k n s h; omega
  | succ count ih =>
    intro k n s hn hbad hok
    cases n with
    | zero =>
      rw [Nat.add_zero] at hbad
      rw [readSprite, memRead_raised s hbad]; rfl
    | succ n =>
      have h0 : dataAddr s k ≤ 0xFFF := hok 0 (by omega)
      rw [readSprite, memRead_done s h0, Exec.bind_done,
        ih (k + 1) n s (by omega) (by rwa [show k + 1 + n = k + (n + 1) by omega])
          (fun j hj => by have := hok (j + 1) (by omega); rwa [show k + 1 + j = k + (j + 1) by omega]),
        Exec.bind_raised, show k + 1 + n = k + (n + 1) by omega]

/-! ## The rasteriser -/

theorem drawPixel_done {x y : Nat} (s : State) (hx : x ≤ 63) (hy : y ≤ 31) :
    drawPixel x y 1 s = .done (s.pixel x y) (s.flipPixel x y) := by
  rw [drawPixel, if_neg (by omega)]; rfl

theorem drawPixel_raised {x y : Nat} (bit : Nat) (s : State) (h : 63 < x ∨ 31 < y) :
    drawPixel x y bit s = .raised (s.enterFault .pixelOutOfBounds (y <<< 16 ||| x)) := if_pos h

/-- A clear bit leaves the pixel and reports no collision (44_display.md R181). -/
theorem drawPixel_clear {x y : Nat} (s : State) (hx : x ≤ 63) (hy : y ≤ 31) : drawPixel x y 0 s = .done false s := by
  rw [drawPixel, if_neg (by omega)]; rfl

/-- The pixel (p, q) lies under a set bit of columns `c` to `c + count - 1` of a row drawn at (x0, y). -/
def RowCovers (x0 y : Nat) (row : Byte) (count c p q : Nat) : Prop :=
  ∃ j, c ≤ j ∧ j < c + count ∧ spriteBit row j = true ∧ p = x0 + j ∧ q = y

theorem rowCovers_zero (x0 y : Nat) (row : Byte) (c p q : Nat) : ¬ RowCovers x0 y row 0 c p q := by
  rintro ⟨j, h1, h2, _⟩; omega

/-- Column `c`, then the columns after it. -/
theorem rowCovers_succ (x0 y : Nat) (row : Byte) (count c p q : Nat) :
    RowCovers x0 y row (count + 1) c p q ↔
      (spriteBit row c = true ∧ p = x0 + c ∧ q = y) ∨ RowCovers x0 y row count (c + 1) p q := by
  constructor
  · rintro ⟨j, h1, h2, h3, h4⟩
    rcases Nat.eq_or_lt_of_le h1 with e | e
    · subst e; exact .inl ⟨h3, h4⟩
    · exact .inr ⟨j, e, by omega, h3, h4⟩
  · rintro (⟨h3, h4⟩ | ⟨j, h1, h2, h3⟩)
    · exact ⟨c, le_rfl, by omega, h3, h4⟩
    · exact ⟨j, by omega, by omega, h3⟩

/-- What a draw has done: the covered pixels are inverted, no other is, and the collision says whether one was set. -/
structure Drawn (Covered : Nat → Nat → Prop) (before hit : Bool) (s t : State) : Prop where
  display : s.DisplayOnly t
  inverted : ∀ p q, Covered p q → t.pixel p q = !s.pixel p q
  kept : ∀ p q, ¬ Covered p q → t.pixel p q = s.pixel p q
  collision : hit = true ↔ before = true ∨ ∃ p q, Covered p q ∧ s.pixel p q = true

/-- Nothing is covered. -/
theorem Drawn.nothing {Covered : Nat → Nat → Prop} (h : ∀ p q, ¬ Covered p q) (hit : Bool) (s : State) :
    Drawn Covered hit hit s s :=
  ⟨.refl s, fun p q hc => absurd hc (h p q), fun _ _ _ => rfl, by simp [h]⟩

/-- One draw after another that covers other pixels. -/
theorem Drawn.trans {C D E : Nat → Nat → Prop} {b0 b1 b2 : Bool} {s t u : State} (h : Drawn C b0 b1 s t)
    (h' : Drawn D b1 b2 t u) (hE : ∀ p q, E p q ↔ C p q ∨ D p q) (hCD : ∀ p q, C p q → ¬ D p q) : Drawn E b0 b2 s u where
  display := h.display.trans h'.display
  inverted p q hc := by
    rcases (hE p q).1 hc with hc | hc
    · rw [h'.kept p q (hCD p q hc), h.inverted p q hc]
    · rw [h'.inverted p q hc, h.kept p q fun hc' => hCD p q hc' hc]
  kept p q hc := by
    rw [hE, not_or] at hc
    rw [h'.kept p q hc.2, h.kept p q hc.1]
  collision := by
    rw [h'.collision, h.collision, or_assoc]
    refine or_congr Iff.rfl ⟨?_, ?_⟩
    · rintro (⟨p, q, hc, hp⟩ | ⟨p, q, hc, hp⟩)
      · exact ⟨p, q, (hE p q).2 (.inl hc), hp⟩
      · exact ⟨p, q, (hE p q).2 (.inr hc), by rwa [h.kept p q fun hc' => hCD p q hc' hc] at hp⟩
    · rintro ⟨p, q, hc, hp⟩
      rcases (hE p q).1 hc with hc | hc
      · exact .inl ⟨p, q, hc, hp⟩
      · exact .inr ⟨p, q, hc, by rwa [h.kept p q fun hc' => hCD p q hc' hc]⟩

/-- Drawing one set bit inside the framebuffer. -/
theorem drawn_pixel {x y : Nat} (before : Bool) (s : State) (hx : x ≤ 63) (hy : y ≤ 31) :
    Drawn (fun p q => p = x ∧ q = y) before (before || s.pixel x y) s (s.flipPixel x y) where
  display := s.displayOnly_flipPixel x y
  inverted p q h := by rw [s.flipPixel_pixel (by omega) (by omega), if_pos h, h.1, h.2]
  kept p q h := by rw [s.flipPixel_pixel (by omega) (by omega), if_neg h]
  collision := by
    rw [Bool.or_eq_true]
    exact or_congr Iff.rfl ⟨fun h => ⟨x, y, ⟨rfl, rfl⟩, h⟩, by rintro ⟨p, q, ⟨rfl, rfl⟩, h⟩; exact h⟩

/-- A row whose drawn bits are inside the framebuffer is drawn. -/
theorem drawRow_done (x0 y : Nat) (row : Byte) : ∀ (count c : Nat) (col : Bool) (s : State),
    (∀ j, c ≤ j → j < c + count → spriteBit row j = true → x0 + j ≤ 63 ∧ y ≤ 31) → ∃ hit t,
    drawRow x0 y row count c col s = .done hit t ∧ Drawn (RowCovers x0 y row count c) col hit s t := by
  intro count
  induction count with
  | zero => intro c col s _; exact ⟨col, s, rfl, .nothing (rowCovers_zero x0 y row c) col s⟩
  | succ count ih =>
    intro c col s h
    by_cases hb : spriteBit row c = true
    · obtain ⟨hx, hy⟩ := h c le_rfl (by omega) hb
      obtain ⟨hit, t, ht, hd⟩ := ih (c + 1) (col || s.pixel (x0 + c) y) (s.flipPixel (x0 + c) y)
        (fun j h1 h2 => h j (by omega) (by omega))
      refine ⟨hit, t, ?_, (drawn_pixel col s hx hy).trans hd (fun p q => ?_) ?_⟩
      · rw [drawRow, if_pos hb, drawPixel_done s hx hy, Exec.bind_done, ht]
      · rw [rowCovers_succ]; simp only [hb, true_and]
      · rintro p q ⟨rfl, rfl⟩ ⟨j, h1, _, _, h4, _⟩; omega
    · obtain ⟨hit, t, ht, hd⟩ := ih (c + 1) col s (fun j h1 h2 => h j (by omega) (by omega))
      have he : RowCovers x0 y row (count + 1) c = RowCovers x0 y row count (c + 1) := by
        funext p q; rw [rowCovers_succ]; simp [hb]
      exact ⟨hit, t, by rw [drawRow, if_neg hb, ht], he ▸ hd⟩

/-- A row's set bits from the left up to the first one that falls outside are drawn, and that one is a PixelOutOfBounds. -/
theorem drawRow_raised (x0 y : Nat) (row : Byte) : ∀ (count c n : Nat) (col : Bool) (s : State),
    n < count → spriteBit row (c + n) = true → (63 < x0 + (c + n) ∨ 31 < y) →
    (∀ j, c ≤ j → j < c + n → spriteBit row j = true → x0 + j ≤ 63 ∧ y ≤ 31) → ∃ t,
    drawRow x0 y row count c col s =
        .raised (t.enterFault .pixelOutOfBounds (y <<< 16 ||| (x0 + (c + n)))) ∧
      ∃ hit, drawRow x0 y row n c col s = .done hit t := by
  intro count
  induction count with
  | zero => intro c n col s h; omega
  | succ count ih =>
    intro c n col s hn hset hout hin
    cases n with
    | zero =>
      rw [Nat.add_zero] at hset hout
      exact ⟨s, by rw [drawRow, if_pos hset, drawPixel_raised 1 s hout]; rfl, col, rfl⟩
    | succ n =>
      rw [show c + (n + 1) = c + 1 + n by omega] at hset hout
      by_cases hb : spriteBit row c = true
      · obtain ⟨hx, hy⟩ := hin c le_rfl (by omega) hb
        obtain ⟨t, h1, hit, h2⟩ := ih (c + 1) n (col || s.pixel (x0 + c) y) (s.flipPixel (x0 + c) y) (by omega) hset hout
          (fun j h1 h2 => hin j (by omega) (by omega))
        refine ⟨t, ?_, hit, ?_⟩
        · rw [drawRow, if_pos hb, drawPixel_done s hx hy, Exec.bind_done, h1, show c + (n + 1) = c + 1 + n by omega]
        · rw [drawRow, if_pos hb, drawPixel_done s hx hy, Exec.bind_done, h2]
      · obtain ⟨t, h1, hit, h2⟩ := ih (c + 1) n col s (by omega) hset hout (fun j h1 h2 => hin j (by omega) (by omega))
        refine ⟨t, ?_, hit, ?_⟩
        · rw [drawRow, if_neg hb, h1, show c + (n + 1) = c + 1 + n by omega]
        · rw [drawRow, if_neg hb, h2]

theorem bytesCover_nil (x0 y p q : Nat) : ¬ BytesCover x0 y [] p q := by
  rintro ⟨r, c, row, h, _⟩; simp at h

/-- The first row, then the rows below it. -/
theorem bytesCover_cons (x0 y : Nat) (row : Byte) (rows : List Byte) (p q : Nat) :
    BytesCover x0 y (row :: rows) p q ↔ RowCovers x0 y row 8 0 p q ∨ BytesCover x0 (y + 1) rows p q := by
  constructor
  · rintro ⟨r, c, row', hr, hc, hs, hp, hq⟩
    cases r with
    | zero =>
      obtain rfl : row = row' := by simpa using hr
      exact .inl ⟨c, by omega, by omega, hs, hp, hq⟩
    | succ r => exact .inr ⟨r, c, row', by simpa using hr, hc, hs, hp, by omega⟩
  · rintro (⟨c, _, hc, hs, hp, hq⟩ | ⟨r, c, row', hr, hc, hs, hp, hq⟩)
    · exact ⟨0, c, row, rfl, by omega, hs, hp, hq⟩
    · exact ⟨r + 1, c, row', by simpa using hr, hc, hs, hp, by omega⟩

/-- Rows whose set bits are all inside the framebuffer are drawn. -/
theorem drawRows_done (x0 : Nat) (rows : List Byte) : ∀ (y : Nat) (col : Bool) (s : State),
    (∀ p q, BytesCover x0 y rows p q → p ≤ 63 ∧ q ≤ 31) → ∃ hit t,
    drawRows x0 rows y col s = .done hit t ∧ Drawn (BytesCover x0 y rows) col hit s t := by
  induction rows with
  | nil => intro y col s _; exact ⟨col, s, rfl, .nothing (bytesCover_nil x0 y) col s⟩
  | cons row rows ih =>
    intro y col s h
    obtain ⟨hit1, t1, h1, d1⟩ := drawRow_done x0 y row 8 0 col s fun j hj hj' hs =>
      h (x0 + j) y ((bytesCover_cons x0 y row rows _ _).2 (.inl ⟨j, hj, hj', hs, rfl, rfl⟩))
    obtain ⟨hit, t, h2, d2⟩ := ih (y + 1) hit1 t1 fun p q hc => h p q ((bytesCover_cons x0 y row rows p q).2 (.inr hc))
    refine ⟨hit, t, by rw [drawRows, h1, Exec.bind_done, h2], d1.trans d2 (bytesCover_cons x0 y row rows) ?_⟩
    rintro p q ⟨_, _, _, _, _, hq⟩ ⟨_, _, _, _, _, _, _, hq'⟩
    omega

/-- Bits of a row that completes are inside the framebuffer. -/
theorem drawRow_inside (x0 y : Nat) (row : Byte) : ∀ (count c : Nat) (col hit : Bool) (s t : State),
    drawRow x0 y row count c col s = .done hit t →
    ∀ j, c ≤ j → j < c + count → spriteBit row j = true → x0 + j ≤ 63 ∧ y ≤ 31 := by
  intro count
  induction count with
  | zero => intro c col hit s t _ j h1 h2; omega
  | succ count ih =>
    intro c col hit s t h j h1 h2 h3
    rw [drawRow] at h
    by_cases hb : spriteBit row c = true
    · rw [if_pos hb] at h
      by_cases hout : 63 < x0 + c ∨ 31 < y
      · rw [drawPixel_raised 1 s hout] at h; cases h
      · rw [drawPixel_done s (by omega) (by omega), Exec.bind_done] at h
        rcases Nat.eq_or_lt_of_le h1 with e | e
        · omega
        · exact ih (c + 1) _ hit _ t h j e (by omega) h3
    · rw [if_neg hb] at h
      rcases Nat.eq_or_lt_of_le h1 with e | e
      · subst e; exact absurd h3 hb
      · exact ih (c + 1) _ hit _ t h j e (by omega) h3

/-- Set bits of rows that complete are inside the framebuffer. -/
theorem drawRows_inside (x0 : Nat) (rows : List Byte) : ∀ (y : Nat) (col hit : Bool) (s t : State),
    drawRows x0 rows y col s = .done hit t → ∀ p q, BytesCover x0 y rows p q → p ≤ 63 ∧ q ≤ 31 := by
  induction rows with
  | nil => intro y col hit s t _ p q hc; exact absurd hc (bytesCover_nil x0 y p q)
  | cons row rows ih =>
    intro y col hit s t h p q hc
    rw [drawRows] at h
    cases hr : drawRow x0 y row 8 0 col s with
    | raised u => rw [hr] at h; cases h
    | done hit1 t1 =>
      rw [hr, Exec.bind_done] at h
      rcases (bytesCover_cons x0 y row rows p q).1 hc with ⟨j, h1, h2, h3, rfl, rfl⟩ | hc
      · exact drawRow_inside x0 _ row 8 0 col hit1 s t1 hr j h1 h2 h3
      · exact ih (y + 1) hit1 hit t1 t h p q hc

/-- Rows up to the first set bit, in row-major order, that falls outside: the rows above it and the part of its row before it are
drawn, and it is a PixelOutOfBounds. -/
theorem drawRows_raised (x0 : Nat) (rows : List Byte) : ∀ (y r c : Nat) (row : Byte) (col : Bool) (s : State),
    rows[r]? = some row → c < 8 → spriteBit row c = true → (63 < x0 + c ∨ 31 < y + r) →
    (∀ r' c' row', DrawnBefore r' c' r c → rows[r']? = some row' → c' < 8 → spriteBit row' c' = true →
      x0 + c' ≤ 63 ∧ y + r' ≤ 31) → ∃ t hit u hit',
    drawRows x0 rows y col s = .raised (t.enterFault .pixelOutOfBounds ((y + r) <<< 16 ||| (x0 + c))) ∧
      drawRows x0 (rows.take r) y col s = .done hit u ∧ drawRow x0 (y + r) row c 0 hit u = .done hit' t := by
  induction rows with
  | nil => intro y r c row col s h; simp at h
  | cons first rows ih =>
    intro y r c row col s hrow hc hset hout hin
    cases r with
    | zero =>
      obtain rfl : first = row := by simpa using hrow
      obtain ⟨t, h1, hit', h2⟩ := drawRow_raised x0 y first 8 0 c col s (by omega) (by simpa using hset) (by simpa using hout)
        (fun j _ hj' hs => by
          simpa using hin 0 j first (.inr ⟨rfl, by omega⟩) rfl (by omega) hs)
      refine ⟨t, col, s, hit', ?_, rfl, by simpa using h2⟩
      rw [drawRows, h1, Exec.bind_raised]; simp
    | succ r =>
      obtain ⟨hit1, t1, h1, _⟩ := drawRow_done x0 y first 8 0 col s (fun j _ hj' hs => by
        simpa using hin 0 j first (.inl (by omega)) rfl (by omega) hs)
      obtain ⟨t, hit, u, hit', h2, h3, h4⟩ := ih (y + 1) r c row hit1 t1 (by simpa using hrow) hc hset
        (by rcases hout with h | h
            · exact .inl h
            · exact .inr (by omega))
        (fun r' c' row' hb hr' hc' hs => by
          have := hin (r' + 1) c' row' (by unfold DrawnBefore at *; omega) (by simpa using hr') hc' hs
          exact ⟨this.1, by omega⟩)
      refine ⟨t, hit, u, hit', ?_, ?_, ?_⟩
      · rw [drawRows, h1, Exec.bind_done, h2, show y + 1 + r = y + (r + 1) by omega]
      · rw [List.take_succ_cons, drawRows, h1, Exec.bind_done, h3]
      · rw [show y + (r + 1) = y + 1 + r by omega]; exact h4

end Sys2Proof.Machine
end

