-- ==== Sys2Proof/Laws/Frames.lean ====
section
/-! SUPPORT. How a claim about an outcome is taken apart, and the frame of each update of the state. -/

namespace Sys2Proof.Machine

@[simp] theorem nextWith_next (t : State) (P : State → Prop) : NextWith (.next t) P ↔ P t :=
  ⟨fun ⟨_, h, hP⟩ => by cases h; exact hP, fun h => ⟨t, rfl, h⟩⟩

@[simp] theorem faultsWith_next (t s : State) (code : BitVec 4) (info : BitVec 32) (regs : List Nibble) (parts : List Part) :
    FaultsWith (.next t) code info regs parts s ↔
      t.run = .faulted ∧ t.fcause = code ∧ t.finfo = info ∧ OnlyChanges regs (.runState :: parts) s t :=
  nextWith_next t _

/-! ## Frames -/

theorem Part.same_refl (p : Part) (s : State) : p.same s s := by
  cases p <;> simp [Part.same]

theorem Part.same_trans {p : Part} {s t u : State} (h : p.same s t) (h' : p.same t u) : p.same s u := by
  cases p <;> simp_all [Part.same]

theorem OnlyChanges.refl (regs : List Nibble) (parts : List Part) (s : State) : OnlyChanges regs parts s s :=
  ⟨fun _ _ => rfl, fun p _ => p.same_refl s⟩

theorem OnlyChanges.trans {regs : List Nibble} {parts : List Part} {s t u : State} (h : OnlyChanges regs parts s t)
    (h' : OnlyChanges regs parts t u) : OnlyChanges regs parts s u :=
  ⟨fun z hz => (h'.1 z hz).trans (h.1 z hz), fun p hp => Part.same_trans (h.2 p hp) (h'.2 p hp)⟩

theorem OnlyChanges.mono {regs regs' : List Nibble} {parts parts' : List Part} {s t : State}
    (h : OnlyChanges regs parts s t) (hr : regs ⊆ regs') (hp : parts ⊆ parts') : OnlyChanges regs' parts' s t :=
  ⟨fun z hz => h.1 z fun h' => hz (hr h'), fun p hn => h.2 p fun h' => hn (hp h')⟩

/-- Two states that agree on everything but the parts listed and the registers: what is left to show of a frame. -/
theorem OnlyChanges.of_eq {regs : List Nibble} {parts : List Part} {s t : State} (hr : ∀ z, z ∉ regs → t.reg z = s.reg z)
    (hi : .index ∈ parts ∨ t.i = s.i) (hpc : .counter ∈ parts ∨ t.pc = s.pc)
    (hs : .stack ∈ parts ∨ (t.stk = s.stk ∧ t.sp = s.sp)) (hm : .memory ∈ parts ∨ ∀ a, t.byteAt a = s.byteAt a)
    (hd : .display ∈ parts ∨ t.fb = s.fb) (hdt : .delay ∈ parts ∨ t.dt = s.dt) (hst : .sound ∈ parts ∨ t.st = s.st)
    (hb : .buzzer ∈ parts ∨ t.buz = s.buz)
    (hf : .runState ∈ parts ∨ (t.run = s.run ∧ t.fcause = s.fcause ∧ t.finfo = s.finfo))
    (hk : .inputs ∈ parts ∨ (t.font = s.font ∧ t.keys = s.keys)) (hn : .samples ∈ parts ∨ t.rndCount = s.rndCount) :
    OnlyChanges regs parts s t := by
  refine ⟨hr, fun p hp => ?_⟩
  cases p
  · exact hi.resolve_left hp
  · exact hpc.resolve_left hp
  · exact hs.resolve_left hp
  · exact hm.resolve_left hp
  · exact hd.resolve_left hp
  · exact hdt.resolve_left hp
  · exact hst.resolve_left hp
  · exact hb.resolve_left hp
  · exact hf.resolve_left hp
  · exact hk.resolve_left hp
  · exact hn.resolve_left hp

theorem frame_setReg (s : State) (x : Nibble) (b : Byte) : OnlyChanges [x] [] s (s.setReg x b) := by
  refine .of_eq (fun z hz => s.setReg_reg_ne b (by simpa using hz)) ?_ ?_ ?_ ?_ ?_ ?_ ?_ ?_ ?_ ?_ ?_ <;> simp

theorem frame_setPc (s : State) (w : Word) : OnlyChanges [] [.counter] s (s.setPc w) := by
  refine .of_eq (fun z _ => rfl) ?_ ?_ ?_ ?_ ?_ ?_ ?_ ?_ ?_ ?_ ?_ <;> simp

theorem frame_setI (s : State) (w : Word) : OnlyChanges [] [.index] s (s.setI w) := by
  refine .of_eq (fun z _ => rfl) ?_ ?_ ?_ ?_ ?_ ?_ ?_ ?_ ?_ ?_ ?_ <;> simp

theorem frame_setDt (s : State) (b : Byte) : OnlyChanges [] [.delay] s (s.setDt b) := by
  refine .of_eq (fun z _ => rfl) ?_ ?_ ?_ ?_ ?_ ?_ ?_ ?_ ?_ ?_ ?_ <;> simp

theorem frame_setSt (s : State) (b : Byte) : OnlyChanges [] [.sound] s (s.setSt b) := by
  refine .of_eq (fun z _ => rfl) ?_ ?_ ?_ ?_ ?_ ?_ ?_ ?_ ?_ ?_ ?_ <;> simp

theorem frame_setRun (s : State) (r : RunState) : OnlyChanges [] [.runState] s (s.setRun r) := by
  refine .of_eq (fun z _ => rfl) ?_ ?_ ?_ ?_ ?_ ?_ ?_ ?_ ?_ ?_ ?_ <;> simp

theorem frame_setByte (s : State) (a : Nat) (b : Byte) : OnlyChanges [] [.memory] s (s.setByte a b) := by
  refine .of_eq (fun z _ => rfl) ?_ ?_ ?_ ?_ ?_ ?_ ?_ ?_ ?_ ?_ ?_ <;> simp

theorem frame_clearDisplay (s : State) : OnlyChanges [] [.display] s s.clearDisplay := by
  refine .of_eq (fun z _ => rfl) ?_ ?_ ?_ ?_ ?_ ?_ ?_ ?_ ?_ ?_ ?_ <;> simp

theorem frame_countSample (s : State) : OnlyChanges [] [.samples] s s.countSample := by
  refine .of_eq (fun z _ => rfl) ?_ ?_ ?_ ?_ ?_ ?_ ?_ ?_ ?_ ?_ ?_ <;> simp

theorem frame_enterFault (s : State) (e : Cause) (info : Nat) : OnlyChanges [] [.runState] s (s.enterFault e info) := by
  refine .of_eq (fun z _ => rfl) ?_ ?_ ?_ ?_ ?_ ?_ ?_ ?_ ?_ ?_ ?_ <;> simp

theorem frame_skipIf (c : Bool) (s : State) : OnlyChanges [] [.counter] s (skipIf c s) := by
  unfold skipIf; split
  · exact frame_setPc s _
  · exact .refl _ _ s

theorem frame_tick (s : State) : OnlyChanges [] [.delay, .sound, .buzzer] s (tick s) := by
  refine .of_eq (fun z _ => rfl) ?_ ?_ ?_ ?_ ?_ ?_ ?_ ?_ ?_ ?_ ?_ <;> simp [tick, State.byteAt]

theorem State.MemOnly.frame {s t : State} (h : s.MemOnly t) : OnlyChanges [] [.memory] s t := by
  obtain ⟨m, rfl⟩ := h
  refine .of_eq (fun z _ => rfl) ?_ ?_ ?_ ?_ ?_ ?_ ?_ ?_ ?_ ?_ ?_ <;> simp

theorem State.DisplayOnly.frame {s t : State} (h : s.DisplayOnly t) : OnlyChanges [] [.display] s t := by
  obtain ⟨fb, rfl⟩ := h
  refine .of_eq (fun z _ => rfl) ?_ ?_ ?_ ?_ ?_ ?_ ?_ ?_ ?_ ?_ ?_ <;> simp [State.byteAt]

/-- A state that differs in its registers alone has every other part the same. -/
theorem State.RegsOnly.same {s t : State} (h : s.RegsOnly t) (p : Part) : p.same s t := by
  obtain ⟨v, rfl⟩ := h
  cases p <;> simp [Part.same, State.byteAt]

/-! ## The parts of a fault -/

/-- A raise in a state reached from `s` by changes of `regs` and `parts` is the fault claimed. -/
theorem faultsWith_enterFault {s t : State} {regs : List Nibble} {parts : List Part} (e : Cause) (info : Nat)
    (h : OnlyChanges regs parts s t) :
    FaultsWith (.next (t.enterFault e info)) e.code (BitVec.ofNat 32 info) regs parts s := by
  rw [faultsWith_next]
  refine ⟨rfl, rfl, rfl, (h.mono (List.Subset.refl _) (List.subset_cons_self _ _)).trans
    ((frame_enterFault t e info).mono (List.nil_subset _) ?_)⟩
  exact List.cons_subset_cons _ (List.nil_subset _)

/-! ## One countdown -/

theorem countDown_toNat (b : Byte) : (countDown b).toNat = b.toNat - 1 := by
  unfold countDown
  split
  · next h => subst h; rfl
  · next h =>
    have h1 : b.toNat ≠ 0 := fun e => h (BitVec.eq_of_toNat_eq e)
    have h2 := b.isLt
    rw [BitVec.toNat_sub]
    simp; omega

end Sys2Proof.Machine
end

