-- ==== Sys2Proof/Laws/Cycle.lean ====
section
/-! SUPPORT. The fetch and the cycle: when they complete and with what, the properties that the transfers, the stack and
the rasteriser keep whichever way they end, and the bytes and pixels they leave alone. -/

namespace Sys2Proof.Machine

/-! ## The fetch -/

/-- Where both bytes exist, the fetch reads the word at PC and changes nothing. -/
theorem fetch_done (s : State) (h : s.pc.toNat + 1 ≤ 0xFFF) : fetch s = .done s.wordAtPc s := by
  rw [fetch, memRead_done s (by omega), Exec.bind_done, memRead_done s h, Exec.bind_done]; rfl

/-- With PC above 0xFFF the high byte does not exist. -/
theorem fetch_raised_high (s : State) (h : 0xFFF < s.pc.toNat) :
    fetch s = .raised (s.enterFault .memOutOfRange s.pc.toNat) := by
  rw [fetch, memRead_raised s h, Exec.bind_raised]

/-- With PC at 0xFFF the low byte does not exist. -/
theorem fetch_raised_low (s : State) (h : s.pc.toNat = 0xFFF) :
    fetch s = .raised (s.enterFault .memOutOfRange 0x1000) := by
  rw [fetch, memRead_done s (by omega), Exec.bind_done, memRead_raised s (by omega), Exec.bind_raised, h]

/-! ## The cycle -/

theorem step_of_running {s : State} (h : s.run = .running) :
    step s = match fetch s with
      | .done w s' => runWord exec w s'
      | .raised s' => .next s' := by
  cases hf : fetch s <;> simp only [step, cycleWith, h, hf]

/-- A cycle that can fetch runs the word at PC. -/
theorem step_of_canFetch {s : State} (h : s.CanFetch) : step s = runWord exec s.wordAtPc s := by
  simp only [step_of_running h.1, fetch_done s h.2]

theorem finishCycle_of_running {s : State} (h : s.run = .running) : finishCycle s = tick s := by
  simp only [finishCycle, h]

theorem finishCycle_of_stopped {s : State} (h : s.run ≠ .running) : finishCycle s = s := by
  unfold finishCycle; split
  · exact absurd ‹_› h
  · rfl
  · rfl

@[simp] theorem finishOutcome_next (s : State) : finishOutcome (.next s) = .next (finishCycle s) := rfl

/-! ## Properties kept whichever way an operation ends -/

/-- A property that fault entry keeps. -/
def KeptByFault (P : State → Prop) : Prop := ∀ s e info, P s → P (s.enterFault e info)

theorem Exec.Ends.outcome {α : Type} {r : Exec α} {P : State → Prop} (h : r.Ends P) : NextWith r.outcome P := by
  cases r <;> exact ⟨_, rfl, h⟩

theorem memRead_ends {P : State → Prop} (hf : KeptByFault P) (a : Nat) {s : State} (h : P s) : (memRead a s).Ends P := by
  unfold memRead; split
  · exact h
  · exact hf s _ _ h

theorem memWrite_ends {P : State → Prop} (hf : KeptByFault P) (hw : ∀ s a b, a ≤ 0xFFF → P s → P (s.setByte a b)) (a : Nat)
    (b : Byte) {s : State} (h : P s) : (memWrite a b s).Ends P := by
  unfold memWrite; split
  · exact hw s a b (by assumption) h
  · exact hf s _ _ h

theorem regRead_ends {P : State → Prop} (hf : KeptByFault P) (k : Nat) {s : State} (h : P s) : (regRead k s).Ends P := by
  unfold regRead; split
  · exact h
  · exact hf s _ _ h

theorem regWrite_ends {P : State → Prop} (hf : KeptByFault P) (hw : ∀ s x b, P s → P (s.setReg x b)) (k : Nat) (b : Byte)
    {s : State} (h : P s) : (regWrite k b s).Ends P := by
  unfold regWrite; split
  · exact hw s _ b h
  · exact hf s _ _ h

theorem keyRead_ends {P : State → Prop} (hf : KeptByFault P) (k : Nat) {s : State} (h : P s) : (keyRead k s).Ends P := by
  unfold keyRead; split
  · exact h
  · exact hf s _ _ h

theorem drawPixel_ends {P : State → Prop} (hf : KeptByFault P) (hw : ∀ s x y, P s → P (s.flipPixel x y)) (x y bit : Nat)
    {s : State} (h : P s) : (drawPixel x y bit s).Ends P := by
  unfold drawPixel; split
  · exact hf s _ _ h
  · split
    · exact h
    · split
      · exact hw s x y h
      · exact hf s _ _ h

theorem storeBytes_ends {P : State → Prop} (hf : KeptByFault P) (hw : ∀ s a b, a ≤ 0xFFF → P s → P (s.setByte a b))
    (bs : List Byte) : ∀ (a : Nat) (s : State), P s → (storeBytes bs a s).Ends P := by
  induction bs with
  | nil => exact fun _ _ h => h
  | cons b bs ih =>
    exact fun a s h => (memWrite_ends hf hw a b h).bind (fun _ s' h' => ih (a + 1) s' h') fun _ h' => h'

theorem storeRegs_ends {P : State → Prop} (hf : KeptByFault P) (hw : ∀ s a b, a ≤ 0xFFF → P s → P (s.setByte a b)) :
    ∀ (count k : Nat) (s : State), P s → (storeRegs count k s).Ends P := by
  intro count
  induction count with
  | zero => exact fun _ _ h => h
  | succ count ih =>
    exact fun k s h => (regRead_ends hf k h).bind
      (fun b s' h' => (memWrite_ends hf hw _ b h').bind (fun _ s'' h'' => ih (k + 1) s'' h'') fun _ h'' => h'') fun _ h' => h'

theorem loadRegs_ends {P : State → Prop} (hf : KeptByFault P) (hw : ∀ s x b, P s → P (s.setReg x b)) :
    ∀ (count k : Nat) (s : State), P s → (loadRegs count k s).Ends P := by
  intro count
  induction count with
  | zero => exact fun _ _ h => h
  | succ count ih =>
    exact fun k s h => (memRead_ends hf _ h).bind
      (fun b s' h' => (regWrite_ends hf hw k b h').bind (fun _ s'' h'' => ih (k + 1) s'' h'') fun _ h'' => h'') fun _ h' => h'

theorem readSprite_ends {P : State → Prop} (hf : KeptByFault P) :
    ∀ (count k : Nat) (s : State), P s → (readSprite count k s).Ends P := by
  intro count
  induction count with
  | zero => exact fun _ _ h => h
  | succ count ih =>
    exact fun k s h => (memRead_ends hf _ h).bind
      (fun _ s' h' => (ih (k + 1) s' h').bind (fun _ _ h'' => h'') fun _ h'' => h'') fun _ h' => h'

theorem drawRow_ends {P : State → Prop} (hf : KeptByFault P) (hw : ∀ s x y, P s → P (s.flipPixel x y)) (x0 y : Nat)
    (row : Byte) : ∀ (count c : Nat) (col : Bool) (s : State), P s → (drawRow x0 y row count c col s).Ends P := by
  intro count
  induction count with
  | zero => exact fun _ _ _ h => h
  | succ count ih =>
    intro c col s h
    rw [drawRow]; split
    · exact (drawPixel_ends hf hw _ _ _ h).bind (fun _ s' h' => ih _ _ s' h') fun _ h' => h'
    · exact ih _ _ s h

theorem drawRows_ends {P : State → Prop} (hf : KeptByFault P) (hw : ∀ s x y, P s → P (s.flipPixel x y)) (x0 : Nat)
    (rows : List Byte) : ∀ (y : Nat) (col : Bool) (s : State), P s → (drawRows x0 rows y col s).Ends P := by
  induction rows with
  | nil => exact fun _ _ _ h => h
  | cons row rows ih =>
    exact fun y col s h => (drawRow_ends hf hw x0 y row 8 0 col s h).bind (fun _ s' h' => ih _ _ s' h') fun _ h' => h'

/-! ## What a transfer or a draw leaves alone, whichever way it ends -/

/-- Bytes stored from `a` up leave every byte outside their range alone. -/
theorem storeBytes_kept (bs : List Byte) : ∀ (a : Nat) (s : State),
    (storeBytes bs a s).Ends fun t => ∀ c, c < a ∨ a + bs.length ≤ c → t.byteAt c = s.byteAt c := by
  induction bs with
  | nil => exact fun _ _ _ _ => rfl
  | cons b bs ih =>
    intro a s
    rw [storeBytes]
    by_cases ha : a ≤ 0xFFF
    · rw [memWrite_done b s ha, Exec.bind_done]
      refine (ih (a + 1) (s.setByte a b)).mono fun t ht c hc => ?_
      rw [List.length_cons] at hc
      rw [ht c (by omega), State.setByte_byteAt_ne _ _ (by omega)]
    · rw [memWrite_raised b s (by omega), Exec.bind_raised]
      exact fun _ _ => rfl

/-- Registers stored from `V[k]` up leave every byte outside their addresses alone. -/
theorem storeRegs_kept : ∀ (count k : Nat) (s : State), (storeRegs count k s).Ends fun t =>
    ∀ c, (∀ j, k ≤ j → j < k + count → c ≠ dataAddr s j) → t.byteAt c = s.byteAt c := by
  intro count
  induction count with
  | zero => exact fun _ _ _ _ => rfl
  | succ count ih =>
    intro k s
    rw [storeRegs]
    refine Exec.Ends.bind (Q := fun t => t = s ∨ ∃ e info, t = s.enterFault e info) ?_ (fun b u hu => ?_) fun u hu => ?_
    · unfold regRead; split
      · exact .inl rfl
      · exact .inr ⟨_, _, rfl⟩
    · have hi : ∀ j, dataAddr u j = dataAddr s j := by rcases hu with rfl | ⟨_, _, rfl⟩ <;> exact fun _ => rfl
      have hb : ∀ c, u.byteAt c = s.byteAt c := by rcases hu with rfl | ⟨_, _, rfl⟩ <;> exact fun _ => rfl
      by_cases ha : dataAddr u k ≤ 0xFFF
      · rw [memWrite_done b u ha, Exec.bind_done]
        refine (ih (k + 1) (u.setByte (dataAddr u k) b)).mono fun t ht c hc => ?_
        rw [ht c fun j h1 h2 => by rw [dataAddr_setByte, hi]; exact hc j (by omega) (by omega),
          State.setByte_byteAt_ne _ _ (by rw [hi]; exact hc k le_rfl (by omega)), hb]
      · rw [memWrite_raised b u (by omega), Exec.bind_raised]
        exact fun c _ => hb c
    · rcases hu with rfl | ⟨_, _, rfl⟩ <;> exact fun _ _ => rfl

/-- One row leaves every pixel that is not under a set bit of it alone. -/
theorem drawRow_kept (x0 y : Nat) (row : Byte) : ∀ (count c : Nat) (col : Bool) (s : State),
    (drawRow x0 y row count c col s).Ends fun t => ∀ p q, ¬ RowCovers x0 y row count c p q → t.pixel p q = s.pixel p q := by
  intro count
  induction count with
  | zero => exact fun _ _ _ _ _ _ => rfl
  | succ count ih =>
    intro c col s
    rw [drawRow]
    split
    · next hs =>
      by_cases h : 63 < x0 + c ∨ 31 < y
      · rw [drawPixel_raised 1 s h, Exec.bind_raised]
        exact fun _ _ _ => rfl
      · rw [drawPixel_done s (by omega) (by omega), Exec.bind_done]
        refine (ih (c + 1) _ _).mono fun t ht p q hc => ?_
        rw [rowCovers_succ] at hc
        rw [ht p q fun h' => hc (.inr h'), s.flipPixel_pixel (by omega) (by omega),
          if_neg fun h' => hc (.inl ⟨hs, h'⟩)]
    · refine (ih (c + 1) col s).mono fun t ht p q hc => ht p q fun h' => hc ?_
      rw [rowCovers_succ]; exact .inr h'

/-- A sprite leaves every pixel that is not under one of its set bits alone. -/
theorem drawRows_kept (x0 : Nat) (rows : List Byte) : ∀ (y : Nat) (col : Bool) (s : State),
    (drawRows x0 rows y col s).Ends fun t => ∀ p q, ¬ BytesCover x0 y rows p q → t.pixel p q = s.pixel p q := by
  induction rows with
  | nil => exact fun _ _ _ _ _ _ => rfl
  | cons row rows ih =>
    intro y col s
    rw [drawRows]
    refine (drawRow_kept x0 y row 8 0 col s).bind (fun col' u hu => ?_) fun u hu p q hc => ?_
    · refine (ih (y + 1) col' u).mono fun t ht p q hc => ?_
      rw [bytesCover_cons] at hc
      rw [ht p q fun h' => hc (.inr h'), hu p q fun h' => hc (.inl h')]
    · rw [bytesCover_cons] at hc
      exact hu p q fun h' => hc (.inl h')

end Sys2Proof.Machine
end

