-- ==== Sys2Proof/Laws/Decode.lean ====
section
/-! SUPPORT. The fields of a word under the dispatcher's masks, and of a word joined from its fields. -/

namespace Sys2Proof

/-! ## A field depends only on the bits its mask keeps (30_encoding.md R71, R74) -/

theorem fieldOP_of_mask {w p : Word} (m : Word) (hm : fieldOP m = 0xF#4) (h : w &&& m = p) : fieldOP w = fieldOP p := by
  subst h
  have : fieldOP (w &&& m) = fieldOP w &&& fieldOP m := by
    unfold fieldOP; exact BitVec.extractLsb'_and
  rw [this, hm]; exact (BitVec.and_allOnes (x := fieldOP w)).symm

theorem fieldN_of_mask {w p : Word} (m : Word) (hm : fieldN m = 0xF#4) (h : w &&& m = p) : fieldN w = fieldN p := by
  subst h
  have : fieldN (w &&& m) = fieldN w &&& fieldN m := by
    unfold fieldN; exact BitVec.extractLsb'_and
  rw [this, hm]; exact (BitVec.and_allOnes (x := fieldN w)).symm

theorem fieldNN_of_mask {w p : Word} (m : Word) (hm : fieldNN m = 0xFF#8) (h : w &&& m = p) : fieldNN w = fieldNN p := by
  subst h
  have : fieldNN (w &&& m) = fieldNN w &&& fieldNN m := by
    unfold fieldNN; exact BitVec.extractLsb'_and
  rw [this, hm]; exact (BitVec.and_allOnes (x := fieldNN w)).symm

/-! ## A word from its fields -/

/-- OP, then the 12 bits below it. -/
theorem word_eq_op_nnn (w : Word) : w = fieldOP w ++ fieldNNN w := by
  unfold fieldOP fieldNNN
  ext i hi
  rw [BitVec.getElem_append]
  split
  · simpa using (BitVec.getLsbD_eq_getElem hi).symm
  · rw [BitVec.getElem_extractLsb', ← BitVec.getLsbD_eq_getElem]
    congr 1; omega

theorem nnn_eq_x_nn (w : Word) : fieldNNN w = fieldX w ++ fieldNN w := by
  unfold fieldX fieldNN fieldNNN
  ext i hi
  rw [BitVec.getElem_append, BitVec.getElem_extractLsb']
  split
  · simp
  · rw [BitVec.getElem_extractLsb']
    congr 1; omega

theorem nn_eq_y_n (w : Word) : fieldNN w = fieldY w ++ fieldN w := by
  unfold fieldY fieldN fieldNN
  ext i hi
  rw [BitVec.getElem_append, BitVec.getElem_extractLsb']
  split
  · simp
  · rw [BitVec.getElem_extractLsb']
    congr 1; omega

/-- OP, X, then the low byte. -/
theorem word_eq_op_x_nn (w : Word) : w = fieldOP w ++ fieldX w ++ fieldNN w := by
  unfold fieldOP fieldX fieldNN
  ext i hi
  rw [BitVec.getElem_append]
  split
  · simpa using (BitVec.getLsbD_eq_getElem hi).symm
  · rw [BitVec.getElem_append]
    split
    · rw [BitVec.getElem_extractLsb', ← BitVec.getLsbD_eq_getElem]
      congr 1; omega
    · rw [BitVec.getElem_extractLsb', ← BitVec.getLsbD_eq_getElem]
      congr 1; omega

/-- The four nibbles. -/
theorem word_eq_op_x_y_n (w : Word) : w = fieldOP w ++ fieldX w ++ fieldY w ++ fieldN w := by
  unfold fieldOP fieldX fieldY fieldN
  ext i hi
  rw [BitVec.getElem_append]
  split
  · simpa using (BitVec.getLsbD_eq_getElem hi).symm
  · rw [BitVec.getElem_append]
    split
    · rw [BitVec.getElem_extractLsb', ← BitVec.getLsbD_eq_getElem]
      congr 1; omega
    · rw [BitVec.getElem_append]
      split
      · rw [BitVec.getElem_extractLsb', ← BitVec.getLsbD_eq_getElem]
        congr 1; omega
      · rw [BitVec.getElem_extractLsb', ← BitVec.getLsbD_eq_getElem]
        congr 1; omega

/-! ## The fields of a word joined from its fields -/

@[simp] theorem fieldOP_join2 (a : Nibble) (b : Addr12) : fieldOP (a ++ b) = a := by
  unfold fieldOP; ext i hi
  rw [BitVec.getElem_extractLsb', BitVec.getLsbD_append, if_neg (by omega)]
  simp [hi]

@[simp] theorem fieldNNN_join2 (a : Nibble) (b : Addr12) : fieldNNN (a ++ b) = b := by
  unfold fieldNNN; ext i hi
  rw [BitVec.getElem_extractLsb', BitVec.getLsbD_append, if_pos (by omega)]
  simp [hi]

@[simp] theorem fieldOP_join3 (a b : Nibble) (c : Byte) : fieldOP (a ++ b ++ c) = a := by
  unfold fieldOP; ext i hi
  rw [BitVec.getElem_extractLsb', BitVec.getLsbD_append, if_neg (by omega), BitVec.getLsbD_append, if_neg (by omega),
    show 12 + i - 8 - 4 = i by omega, BitVec.getLsbD_eq_getElem hi]

@[simp] theorem fieldX_join3 (a b : Nibble) (c : Byte) : fieldX (a ++ b ++ c) = b := by
  unfold fieldX; ext i hi
  rw [BitVec.getElem_extractLsb', BitVec.getLsbD_append, if_neg (by omega), BitVec.getLsbD_append, if_pos (by omega),
    show 8 + i - 8 = i by omega, BitVec.getLsbD_eq_getElem hi]

@[simp] theorem fieldNN_join3 (a b : Nibble) (c : Byte) : fieldNN (a ++ b ++ c) = c := by
  unfold fieldNN; ext i hi
  rw [BitVec.getElem_extractLsb', BitVec.getLsbD_append, if_pos (by omega),
    show 0 + i = i by omega, BitVec.getLsbD_eq_getElem hi]

@[simp] theorem fieldOP_join4 (a b c d : Nibble) : fieldOP (a ++ b ++ c ++ d) = a := by
  unfold fieldOP; ext i hi
  rw [BitVec.getElem_extractLsb', BitVec.getLsbD_append, if_neg (by omega), BitVec.getLsbD_append, if_neg (by omega),
    BitVec.getLsbD_append, if_neg (by omega), show 12 + i - 4 - 4 - 4 = i by omega, BitVec.getLsbD_eq_getElem hi]

@[simp] theorem fieldX_join4 (a b c d : Nibble) : fieldX (a ++ b ++ c ++ d) = b := by
  unfold fieldX; ext i hi
  rw [BitVec.getElem_extractLsb', BitVec.getLsbD_append, if_neg (by omega), BitVec.getLsbD_append, if_neg (by omega),
    BitVec.getLsbD_append, if_pos (by omega), show 8 + i - 4 - 4 = i by omega, BitVec.getLsbD_eq_getElem hi]

@[simp] theorem fieldY_join4 (a b c d : Nibble) : fieldY (a ++ b ++ c ++ d) = c := by
  unfold fieldY; ext i hi
  rw [BitVec.getElem_extractLsb', BitVec.getLsbD_append, if_neg (by omega), BitVec.getLsbD_append, if_pos (by omega),
    show 4 + i - 4 = i by omega, BitVec.getLsbD_eq_getElem hi]

@[simp] theorem fieldN_join4 (a b c d : Nibble) : fieldN (a ++ b ++ c ++ d) = d := by
  unfold fieldN; ext i hi
  rw [BitVec.getElem_extractLsb', BitVec.getLsbD_append, if_pos (by omega),
    show 0 + i = i by omega, BitVec.getLsbD_eq_getElem hi]

/-- The bytes of a word in fetch order give the word back (20_memory.md R52). -/
@[simp] theorem wordOfBytes_bytes (w : Word) : wordOfBytes (highByte w) (lowByte w) = w := by
  unfold wordOfBytes highByte lowByte
  ext i hi
  rw [BitVec.getElem_append]
  split
  · simpa using BitVec.getLsbD_eq_getElem hi
  · rw [BitVec.getElem_extractLsb', show 8 + (i - 8) = i by omega, BitVec.getLsbD_eq_getElem hi]

end Sys2Proof
end

