-- ==== Sys2Proof/Laws/PerInstr.lean ====
section
/-! SUPPORT. The per-instruction family `Encoding`: every instruction's word meets a row of the opcode table, and the row
reads the instruction back from it (30_encoding.md R76). -/

namespace Sys2Proof.Laws.Encoding

/-- The word of the instruction agrees with some row of the table in the bits of the row's mask, and that row's operands,
read from the word, are the instruction. -/
def Statement (i : Instr) : Prop :=
  ∃ r ∈ opcodeTable, encode i &&& r.mask = r.pattern ∧ r.operands (encode i) = i

/-- From a place in the table, what `Statement` asks. -/
theorem statement_of_row {i : Instr} (k : Nat) (r : OpcodeRow) (hr : opcodeTable[k]? = some r)
    (hp : encode i &&& r.mask = r.pattern) (ho : r.operands (encode i) = i) : Statement i :=
  ⟨r, List.mem_of_getElem? hr, hp, ho⟩

/-! ## A word under the masks of the table -/

theorem mask2 (op : Nibble) (nnn : Addr12) : (op ++ nnn) &&& 0xF000#16 = op ++ 0x000#12 := by
  rw [show 0xF000#16 = BitVec.allOnes 4 ++ 0#12 by decide, BitVec.and_append, BitVec.and_zero, BitVec.and_allOnes]

theorem maskOP3 (op x : Nibble) (nn : Byte) : (op ++ x ++ nn) &&& 0xF000#16 = op ++ 0x0#4 ++ 0x00#8 := by
  rw [show 0xF000#16 = BitVec.allOnes 4 ++ 0#4 ++ 0#8 by decide, BitVec.and_append, BitVec.and_append, BitVec.and_zero,
    BitVec.and_zero, BitVec.and_allOnes]

theorem maskOP4 (op x y n : Nibble) : (op ++ x ++ y ++ n) &&& 0xF000#16 = op ++ 0x0#4 ++ 0x0#4 ++ 0x0#4 := by
  rw [show 0xF000#16 = BitVec.allOnes 4 ++ 0#4 ++ 0#4 ++ 0#4 by decide, BitVec.and_append, BitVec.and_append,
    BitVec.and_append, BitVec.and_zero, BitVec.and_zero, BitVec.and_zero, BitVec.and_allOnes]

theorem maskN (op x y n : Nibble) : (op ++ x ++ y ++ n) &&& 0xF00F#16 = op ++ 0x0#4 ++ 0x0#4 ++ n := by
  rw [show 0xF00F#16 = BitVec.allOnes 4 ++ 0#4 ++ 0#4 ++ BitVec.allOnes 4 by decide, BitVec.and_append, BitVec.and_append,
    BitVec.and_append, BitVec.and_zero, BitVec.and_zero, BitVec.and_allOnes, BitVec.and_allOnes]

theorem maskNN (op x : Nibble) (nn : Byte) : (op ++ x ++ nn) &&& 0xF0FF#16 = op ++ 0x0#4 ++ nn := by
  rw [show 0xF0FF#16 = BitVec.allOnes 4 ++ 0#4 ++ BitVec.allOnes 8 by decide, BitVec.and_append, BitVec.and_append,
    BitVec.and_zero, BitVec.and_allOnes, BitVec.and_allOnes]

/-! ## One lemma per constructor, each with its row's place in the table -/

theorem cls : Statement .cls := statement_of_row 0 _ rfl (by decide) rfl

theorem ret : Statement .ret := statement_of_row 1 _ rfl (by decide) rfl

theorem jp (nnn : Addr12) : Statement (.jp nnn) :=
  statement_of_row 2 _ rfl (mask2 _ nnn) (by simp [encode])

theorem call (nnn : Addr12) : Statement (.call nnn) :=
  statement_of_row 3 _ rfl (mask2 _ nnn) (by simp [encode])

theorem seXNN (x : Nibble) (nn : Byte) : Statement (.seXNN x nn) :=
  statement_of_row 4 _ rfl (maskOP3 _ x nn) (by simp [encode])

theorem sneXNN (x : Nibble) (nn : Byte) : Statement (.sneXNN x nn) :=
  statement_of_row 5 _ rfl (maskOP3 _ x nn) (by simp [encode])

theorem seXY (x y n : Nibble) : Statement (.seXY x y n) :=
  statement_of_row 6 _ rfl (maskOP4 _ x y n) (by simp [encode])

theorem ldXNN (x : Nibble) (nn : Byte) : Statement (.ldXNN x nn) :=
  statement_of_row 7 _ rfl (maskOP3 _ x nn) (by simp [encode])

theorem addXNN (x : Nibble) (nn : Byte) : Statement (.addXNN x nn) :=
  statement_of_row 8 _ rfl (maskOP3 _ x nn) (by simp [encode])

theorem ldXY (x y : Nibble) : Statement (.ldXY x y) :=
  statement_of_row 9 _ rfl (maskN _ x y _) (by simp [encode])

theorem orXY (x y : Nibble) : Statement (.orXY x y) :=
  statement_of_row 10 _ rfl (maskN _ x y _) (by simp [encode])

theorem andXY (x y : Nibble) : Statement (.andXY x y) :=
  statement_of_row 11 _ rfl (maskN _ x y _) (by simp [encode])

theorem xorXY (x y : Nibble) : Statement (.xorXY x y) :=
  statement_of_row 12 _ rfl (maskN _ x y _) (by simp [encode])

theorem addXY (x y : Nibble) : Statement (.addXY x y) :=
  statement_of_row 13 _ rfl (maskN _ x y _) (by simp [encode])

theorem sub (x y : Nibble) : Statement (.sub x y) :=
  statement_of_row 14 _ rfl (maskN _ x y _) (by simp [encode])

theorem shr (x y : Nibble) : Statement (.shr x y) :=
  statement_of_row 15 _ rfl (maskN _ x y _) (by simp [encode])

theorem subn (x y : Nibble) : Statement (.subn x y) :=
  statement_of_row 16 _ rfl (maskN _ x y _) (by simp [encode])

theorem shl (x y : Nibble) : Statement (.shl x y) :=
  statement_of_row 17 _ rfl (maskN _ x y _) (by simp [encode])

theorem sneXY (x y n : Nibble) : Statement (.sneXY x y n) :=
  statement_of_row 18 _ rfl (maskOP4 _ x y n) (by simp [encode])

theorem ldI (nnn : Addr12) : Statement (.ldI nnn) :=
  statement_of_row 19 _ rfl (mask2 _ nnn) (by simp [encode])

theorem jpV0 (nnn : Addr12) : Statement (.jpV0 nnn) :=
  statement_of_row 20 _ rfl (mask2 _ nnn) (by simp [encode])

theorem rnd (x : Nibble) (nn : Byte) : Statement (.rnd x nn) :=
  statement_of_row 21 _ rfl (maskOP3 _ x nn) (by simp [encode])

theorem drw (x y n : Nibble) : Statement (.drw x y n) :=
  statement_of_row 22 _ rfl (maskOP4 _ x y n) (by simp [encode])

theorem skp (x : Nibble) : Statement (.skp x) :=
  statement_of_row 23 _ rfl (maskNN _ x _) (by simp [encode])

theorem sknp (x : Nibble) : Statement (.sknp x) :=
  statement_of_row 24 _ rfl (maskNN _ x _) (by simp [encode])

theorem ldXDT (x : Nibble) : Statement (.ldXDT x) :=
  statement_of_row 25 _ rfl (maskNN _ x _) (by simp [encode])

theorem ldXK (x : Nibble) : Statement (.ldXK x) :=
  statement_of_row 26 _ rfl (maskNN _ x _) (by simp [encode])

theorem ldDTX (x : Nibble) : Statement (.ldDTX x) :=
  statement_of_row 27 _ rfl (maskNN _ x _) (by simp [encode])

theorem ldSTX (x : Nibble) : Statement (.ldSTX x) :=
  statement_of_row 28 _ rfl (maskNN _ x _) (by simp [encode])

theorem addIX (x : Nibble) : Statement (.addIX x) :=
  statement_of_row 29 _ rfl (maskNN _ x _) (by simp [encode])

theorem ldFX (x : Nibble) : Statement (.ldFX x) :=
  statement_of_row 30 _ rfl (maskNN _ x _) (by simp [encode])

theorem ldBX (x : Nibble) : Statement (.ldBX x) :=
  statement_of_row 31 _ rfl (maskNN _ x _) (by simp [encode])

theorem stRegs (x : Nibble) : Statement (.stRegs x) :=
  statement_of_row 32 _ rfl (maskNN _ x _) (by simp [encode])

theorem ldRegs (x : Nibble) : Statement (.ldRegs x) :=
  statement_of_row 33 _ rfl (maskNN _ x _) (by simp [encode])

theorem halt : Statement .halt := statement_of_row 34 _ rfl (by decide) rfl

end Sys2Proof.Laws.Encoding
end

