-- ==== Sys2Proof/Laws/Ports.lean ====
section
/-! SUPPORT. The debug port: what setting one pixel does, and the codes of RUN. -/

namespace Sys2Proof.Machine

/-- Setting a pixel sets that pixel and no other. -/
theorem State.setPixel_pixel (s : State) {x y : Nat} (hx : x < 64) (hy : y < 32) (bit : Bool) (p q : Nat) :
    (s.setPixel x y bit).pixel p q = if p = x ∧ q = y then bit else s.pixel p q := by
  unfold State.setPixel
  split
  · next h =>
    split
    · next hpq => rw [hpq.1, hpq.2, h]
    · rfl
  · next h =>
    rw [s.flipPixel_pixel hx hy]
    split
    · revert h; cases s.pixel x y <;> cases bit <;> simp
    · rfl

theorem State.displayOnly_setPixel (s : State) (x y : Nat) (bit : Bool) : s.DisplayOnly (s.setPixel x y bit) := by
  unfold State.setPixel
  split
  · exact .refl s
  · exact s.displayOnly_flipPixel x y

/-- Every run state has its own code, and only those three codes name one (10_state.md R38). -/
@[simp] theorem RunState.ofCode_code (r : RunState) : RunState.ofCode r.code = some r := by cases r <;> rfl

theorem RunState.ofCode_reserved : RunState.ofCode 3 = none := rfl

theorem RunState.code_of_ofCode {c : BitVec 2} {r : RunState} (h : RunState.ofCode c = some r) : r.code = c := by
  unfold RunState.ofCode at h
  split at h
  · next hc => cases h; exact hc.symm
  · split at h
    · next hc => cases h; exact hc.symm
    · split at h
      · next hc => cases h; exact hc.symm
      · cases h

end Sys2Proof.Machine
end

