-- ==== Sys2Proof/Tests/Slice0.lean ====
section
/-! SUPPORT. The model's own tests. Expected results come from 95_test_vectors.md (the vector's id stands at each test) or
from the encodings of 30_encoding.md R73 and R76. The second half has the witnesses of the obligations' hypotheses, one for
each clause, at the values where clauses meet. -/

namespace Sys2Proof.Tests

open Sys2Proof.Machine

/-! ## Helpers -/

/-- The next state of an outcome, and reset where there is none. -/
def next (o : Host.Outcome State Fault Refusal) : State :=
  match o with
  | .next s => s
  | _ => State.reset

/-- Reset with some registers set. -/
def regs (l : List (Nibble × Byte)) : State := l.foldl (fun s p => s.setReg p.1 p.2) State.reset

/-- Bytes placed from an address up. -/
def bytes (a : Nat) (bs : List Byte) (s : State) : State :=
  match bs with
  | [] => s
  | b :: rest => bytes (a + 1) rest (s.setByte a b)

/-- A state at a call depth, every slot holding `w`. -/
def depth (d : Fin 17) (w : Word) : State := { State.reset with sp := d, stk := Vector.replicate 16 w }

/-- One cycle of the word placed at PC. -/
def cycle (w : Nat) (s : State) : State := next (step (s.withFetchWord 16 w))

/-- A fault's record. -/
def faultOf (s : State) : RunState × BitVec 4 × BitVec 32 := (s.run, s.fcause, s.finfo)

/-! ## Well-formedness: an ill-formed term for each check (30_encoding.md R77, R84) -/

theorem test_wellFormed_se_xy : Instr.wellFormed (.seXY 1 2 1) = false ∧ Instr.wellFormed (.seXY 1 2 0) = true := by decide
theorem test_wellFormed_sne_xy : Instr.wellFormed (.sneXY 1 2 0xF) = false ∧ Instr.wellFormed (.sneXY 1 2 0) = true := by
  decide

/-! ## Decoding: words written out from the encodings of R73 and R76 -/

/-- 0000 0000 1110 0000; 0000 0000 1110 1110; 0000 0000 0000 0000. -/
theorem test_decode_family0 : decodeWord 0b0000000011100000 = .ok .cls ∧ decodeWord 0b0000000011101110 = .ok .ret ∧
    decodeWord 0b0000000000000000 = .ok .halt := by decide

/-- 0001 and 0010 and 1011, then the 12 bits of NNN. -/
theorem test_decode_jumps : decodeWord 0b0001101010111100 = .ok (.jp 0xABC) ∧
    decodeWord 0b0010001101000101 = .ok (.call 0x345) ∧ decodeWord 0b1011001011111110 = .ok (.jpV0 0x2FE) := by decide

/-- 0011 and 0100, then X and NN; 0101 and 1001, then X, Y and the ignored nibble. -/
theorem test_decode_skips : decodeWord 0b0011001101000010 = .ok (.seXNN 3 0x42) ∧
    decodeWord 0b0100001101000010 = .ok (.sneXNN 3 0x42) ∧ decodeWord 0b0101000100100000 = .ok (.seXY 1 2 0) ∧
    decodeWord 0b1001101010110111 = .ok (.sneXY 0xA 0xB 7) := by decide

/-- 0110 and 0111, then X and NN; 1100, then X and NN. -/
theorem test_decode_immediates : decodeWord 0b0110101011111111 = .ok (.ldXNN 0xA 0xFF) ∧
    decodeWord 0b0111000100000010 = .ok (.addXNN 1 2) ∧ decodeWord 0b1100000100001111 = .ok (.rnd 1 0x0F) := by decide

/-- 1000, then X = 3, Y = 4 and the selecting nibble. -/
theorem test_decode_family8 : decodeWord 0b1000001101000000 = .ok (.ldXY 3 4) ∧
    decodeWord 0b1000001101000001 = .ok (.orXY 3 4) ∧ decodeWord 0b1000001101000010 = .ok (.andXY 3 4) ∧
    decodeWord 0b1000001101000011 = .ok (.xorXY 3 4) ∧ decodeWord 0b1000001101000100 = .ok (.addXY 3 4) ∧
    decodeWord 0b1000001101000101 = .ok (.sub 3 4) ∧ decodeWord 0b1000001101000110 = .ok (.shr 3 4) ∧
    decodeWord 0b1000001101000111 = .ok (.subn 3 4) ∧ decodeWord 0b1000001101001110 = .ok (.shl 3 4) := by decide

/-- 1010, then NNN; 1101, then X, Y and N; 1110, then X and 1001 1110 or 1010 0001. -/
theorem test_decode_index_draw_keys : decodeWord 0b1010001011110000 = .ok (.ldI 0x2F0) ∧
    decodeWord 0b1101000100100011 = .ok (.drw 1 2 3) ∧ decodeWord 0b1110000110011110 = .ok (.skp 1) ∧
    decodeWord 0b1110000110100001 = .ok (.sknp 1) := by decide

/-- 1111, then X = 5 and the selecting byte. -/
theorem test_decode_familyF : decodeWord 0b1111010100000111 = .ok (.ldXDT 5) ∧
    decodeWord 0b1111010100001010 = .ok (.ldXK 5) ∧ decodeWord 0b1111010100010101 = .ok (.ldDTX 5) ∧
    decodeWord 0b1111010100011000 = .ok (.ldSTX 5) ∧ decodeWord 0b1111010100011110 = .ok (.addIX 5) ∧
    decodeWord 0b1111010100101001 = .ok (.ldFX 5) ∧ decodeWord 0b1111010100110011 = .ok (.ldBX 5) ∧
    decodeWord 0b1111010101010101 = .ok (.stRegs 5) ∧ decodeWord 0b1111010101100101 = .ok (.ldRegs 5) := by decide

/-- The UNKNOWN rows of 95_test_vectors.md section 2.1. -/
theorem test_decode_unknown : decodeWord 0x01E0 = .error (.unknownOpcode 0x01E0) ∧
    decodeWord 0x00E1 = .error (.unknownOpcode 0x00E1) ∧ decodeWord 0x0123 = .error (.unknownOpcode 0x0123) ∧
    decodeWord 0x8008 = .error (.unknownOpcode 0x8008) ∧ decodeWord 0x800F = .error (.unknownOpcode 0x800F) ∧
    decodeWord 0xE19F = .error (.unknownOpcode 0xE19F) ∧ decodeWord 0xE0A2 = .error (.unknownOpcode 0xE0A2) ∧
    decodeWord 0xF108 = .error (.unknownOpcode 0xF108) ∧ decodeWord 0xFFFF = .error (.unknownOpcode 0xFFFF) := by decide

/-- Bytes in fetch order, high byte first (20_memory.md R52). -/
theorem test_decode_bytes : decode [0xD1, 0x23, 0x60] = .ok (.drw 1 2 3, [0x60]) ∧ decode [0xD1] = .error (.truncated 1) ∧
    encodeBytes (.drw 1 2 3) = [0xD1, 0x23] ∧ decodeTableWord 16 0xD123 = some (.drw 1 2 3) := by decide

/-! ## Control flow -/

/-- F2. -/
theorem test_ret : (cycle 0x00EE (depth 2 0x456)).pc = 0x456 ∧ (cycle 0x00EE (depth 2 0x456)).sp = 1 := by decide
/-- F1. -/
theorem test_ret_underflow : faultOf (cycle 0x00EE State.reset) = (.faulted, 6, 0xEE) ∧
    (cycle 0x00EE State.reset).pc = 0x202 := by decide
/-- F3. -/
theorem test_jp : (cycle 0x1ABC State.reset).pc = 0xABC := by decide
/-- F6. -/
theorem test_call : (cycle 0x2345 (depth 15 0)).pc = 0x345 ∧ (cycle 0x2345 (depth 15 0)).stk[15] = 0x202 ∧
    (cycle 0x2345 (depth 15 0)).sp = 16 := by decide
/-- F7. -/
theorem test_call_overflow : faultOf (cycle 0x2345 (depth 16 7)) = (.faulted, 5, 0x2345) ∧
    (cycle 0x2345 (depth 16 7)).pc = 0x202 ∧ (cycle 0x2345 (depth 16 7)).stk = (depth 16 7).stk := by decide
/-- F8, F9. -/
theorem test_jp_v0 : (cycle 0xBFFF (regs [(0, 0xFF)])).pc = 0x10FE ∧ (cycle 0xB250 (regs [(2, 0x10)])).pc = 0x250 := by decide
/-- F11, F12. -/
theorem test_se_xnn : (cycle 0x3342 (regs [(3, 0x42)])).pc = 0x204 ∧ (cycle 0x3342 (regs [(3, 0x41)])).pc = 0x202 := by decide
/-- F13, F14. -/
theorem test_sne_xnn : (cycle 0x4342 (regs [(3, 0x42)])).pc = 0x202 ∧ (cycle 0x4342 State.reset).pc = 0x204 := by decide
/-- F16, F17. -/
theorem test_se_xy : (cycle 0x512F (regs [(1, 7), (2, 7)])).pc = 0x204 ∧
    (cycle 0x5120 (regs [(1, 7), (2, 8)])).pc = 0x202 := by decide
/-- F18, F19. -/
theorem test_sne_xy : (cycle 0x9120 (regs [(1, 7), (2, 8)])).pc = 0x204 ∧ (cycle 0x9110 (regs [(1, 7)])).pc = 0x202 := by
  decide

/-! ## Registers and arithmetic -/

/-- A1. -/
theorem test_ld_xnn : (cycle 0x6AFF State.reset).reg 0xA = 0xFF := by decide
/-- A2, A3. -/
theorem test_add_xnn : (cycle 0x7102 (regs [(1, 0xFF), (0xF, 0x55)])).reg 1 = 1 ∧
    (cycle 0x7102 (regs [(1, 0xFF), (0xF, 0x55)])).reg 0xF = 0x55 ∧ (cycle 0x7F01 (regs [(0xF, 0xFF)])).reg 0xF = 0 := by decide
/-- A4. -/
theorem test_ld_xy : (cycle 0x8120 (regs [(2, 0x33)])).reg 1 = 0x33 := by decide
/-- A5. -/
theorem test_or : (cycle 0x8121 (regs [(1, 0x0F), (2, 0xF0)])).reg 1 = 0xFF := by decide
/-- A6. -/
theorem test_and : (cycle 0x8122 (regs [(1, 0x3C), (2, 0x0F)])).reg 1 = 0x0C := by decide
/-- A7. -/
theorem test_xor : (cycle 0x8123 (regs [(1, 0xFF), (2, 0x0F)])).reg 1 = 0xF0 := by decide
/-- A10, A11. -/
theorem test_add_xy : (cycle 0x8124 (regs [(1, 0xFF), (2, 2), (0xF, 0x77)])).reg 1 = 1 ∧
    (cycle 0x8124 (regs [(1, 0xFF), (2, 2), (0xF, 0x77)])).reg 0xF = 0x77 ∧
    (cycle 0x8FF4 (regs [(0xF, 0x90)])).reg 0xF = 0x20 := by decide
/-- A13, A14. -/
theorem test_sub : (cycle 0x8125 (regs [(1, 3), (2, 5)])).reg 1 = 0xFE ∧ (cycle 0x8125 (regs [(1, 3), (2, 5)])).reg 0xF = 0 ∧
    (cycle 0x8125 (regs [(1, 7), (2, 7)])).reg 0xF = 0 := by decide
/-- A15, A16. -/
theorem test_sub_vf : (cycle 0x8F25 (regs [(0xF, 0x10), (2, 5)])).reg 0xF = 0xFC ∧
    (cycle 0x81F5 (regs [(1, 5), (0xF, 3)])).reg 1 = 4 := by decide
/-- A20. -/
theorem test_shr : (cycle 0x8126 (regs [(1, 5), (2, 0xFF)])).reg 0xF = 1 ∧
    (cycle 0x8126 (regs [(1, 5), (2, 0xFF)])).reg 1 = 2 := by decide
/-- A21. -/
theorem test_shr_vf : (cycle 0x8F06 (regs [(0xF, 3)])).reg 0xF = 0 := by decide
/-- A23. -/
theorem test_subn : (cycle 0x8127 (regs [(1, 5), (2, 3)])).reg 1 = 0xFE ∧
    (cycle 0x8127 (regs [(1, 5), (2, 3)])).reg 0xF = 0 := by decide
/-- A24, A25. -/
theorem test_subn_vf : (cycle 0x8F27 (regs [(0xF, 2), (2, 5)])).reg 0xF = 4 ∧
    (cycle 0x81F7 (regs [(1, 2), (0xF, 5)])).reg 1 = 0xFF := by decide
/-- A26: the flag is 0x80, not 1. -/
theorem test_shl : (cycle 0x810E (regs [(1, 0x81)])).reg 0xF = 0x80 ∧ (cycle 0x810E (regs [(1, 0x81)])).reg 1 = 2 := by decide
/-- A29. -/
theorem test_shl_vf : (cycle 0x8F0E (regs [(0xF, 0xC0)])).reg 0xF = 0 := by decide
/-- A30, A32, with the sample of RND as the vector gives it. -/
theorem test_rnd : (maskedRandom 0xA5 1 0x0F State.reset).reg 1 = 0x05 ∧
    (maskedRandom 0x3C 1 0xFF State.reset).reg 1 = 0x3C := by decide
/-- A31, and one sample taken. -/
theorem test_rnd_zero_mask : (cycle 0xC100 (regs [(1, 9)])).rndCount = 1 ∧ (cycle 0xC100 (regs [(1, 9)])).pc = 0x202 := by
  decide

/-! ## The index register and memory -/

/-- M2. -/
theorem test_ld_i : (cycle 0xAFFF State.reset).i = 0xFFF := by decide
/-- M3. -/
theorem test_add_i : (cycle 0xF21E ((regs [(2, 0x0F)]).setI 0xFF0)).i = 0xFFF := by decide
/-- M4. -/
theorem test_add_i_overflow : faultOf (cycle 0xF21E ((regs [(2, 0x10)]).setI 0xFF0)) = (.faulted, 3, 0x1000) ∧
    (cycle 0xF21E ((regs [(2, 0x10)]).setI 0xFF0)).i = 0xFF0 := by decide
/-- M8, M10. -/
theorem test_ld_f : (cycle 0xF329 (regs [(3, 0xF)])).i = 0x4B ∧ (cycle 0xF329 (regs [(3, 0xFF)])).i = 0x4FB := by decide
/-- M11: the digits of 254. -/
theorem test_ld_b : ∀ k : Fin 3, (cycle 0xF533 ((regs [(5, 0xFE)]).setI 0x300)).byteAt (0x300 + k.val) =
    [0x02, 0x05, 0x04][k.val] := by decide
/-- M16. -/
theorem test_ld_b_fault : faultOf (cycle 0xF533 ((regs [(5, 0x7B)]).setI 0xFFE)) = (.faulted, 2, 0x1000) ∧
    (cycle 0xF533 ((regs [(5, 0x7B)]).setI 0xFFE)).byteAt 0xFFF = 2 := by decide
/-- M18, with the byte above the range kept. -/
theorem test_st_regs : (cycle 0xF255 ((regs [(0, 1), (1, 2), (2, 3), (3, 4)]).setI 0x400)).mem =
    [(0x200, 0xF2), (0x201, 0x55), (0x400, 1), (0x401, 2), (0x402, 3)] := by decide
/-- M21. -/
theorem test_st_regs_overflow : faultOf (cycle 0xFF55 ((regs [(0, 1)]).setI 0xFF1)) = (.faulted, 4, 0x1000) ∧
    (cycle 0xFF55 ((regs [(0, 1)]).setI 0xFF1)).byteAt 0xFF1 = 0 := by decide
/-- M22. -/
theorem test_ld_regs : (cycle 0xF265 ((bytes 0x400 [1, 2, 3, 4] State.reset).setI 0x400)).reg 2 = 3 ∧
    (cycle 0xF265 ((bytes 0x400 [1, 2, 3, 4] State.reset).setI 0x400)).reg 3 = 0 := by decide
/-- M23. -/
theorem test_ld_regs_fault : faultOf (cycle 0xF365 ((bytes 0xFFE [0xAA, 0xBB] (regs [(2, 0x11)])).setI 0xFFE)) =
      (.faulted, 2, 0x1000) ∧
    (cycle 0xF365 ((bytes 0xFFE [0xAA, 0xBB] (regs [(2, 0x11)])).setI 0xFFE)).reg 1 = 0xBB ∧
    (cycle 0xF365 ((bytes 0xFFE [0xAA, 0xBB] (regs [(2, 0x11)])).setI 0xFFE)).reg 2 = 0x11 := by decide

/-! ## The display -/

/-- D1, in part. -/
theorem test_cls : (cycle 0x00E0 (((regs [(0xF, 0x33)]).flipPixel 63 31))).pixel 63 31 = false ∧
    (cycle 0x00E0 (((regs [(0xF, 0x33)]).flipPixel 63 31))).reg 0xF = 0x33 := by decide
/-- D11 with D12's pixel: three rows, and a collision at (2,2). -/
theorem test_drw : (cycle 0xD013 ((bytes 0x300 [0x80, 0x40, 0x20] (State.reset.flipPixel 2 2)).setI 0x300)).fb[1] = 0b10 ∧
    (cycle 0xD013 ((bytes 0x300 [0x80, 0x40, 0x20] (State.reset.flipPixel 2 2)).setI 0x300)).fb[2] = 0 ∧
    (cycle 0xD013 ((bytes 0x300 [0x80, 0x40, 0x20] (State.reset.flipPixel 2 2)).setI 0x300)).reg 0xF = 1 := by decide
/-- D6. -/
theorem test_drw_fault : faultOf (cycle 0xD011 ((bytes 0x300 [0xF8] (regs [(0, 60), (0xF, 7)])).setI 0x300)) =
      (.faulted, 8, 0x40) ∧
    (cycle 0xD011 ((bytes 0x300 [0xF8] (regs [(0, 60), (0xF, 7)])).setI 0x300)).fb[0] = 0xF000000000000000 ∧
    (cycle 0xD011 ((bytes 0x300 [0xF8] (regs [(0, 60), (0xF, 7)])).setI 0x300)).reg 0xF = 7 := by decide

/-! ## Timers and keys -/

/-- T1. -/
theorem test_ld_x_dt : (cycle 0xF307 (State.reset.setDt 0x10)).reg 3 = 0x10 ∧
    (cycle 0xF307 (State.reset.setDt 0x10)).dt = 0x0F := by decide
/-- T3, T4. -/
theorem test_ld_dt_x : (cycle 0xF115 (regs [(1, 5)])).dt = 4 ∧ (next (executeWord 0xF115 (regs [(1, 5)]))).dt = 5 := by decide
/-- T6, T7. -/
theorem test_ld_st_x : (cycle 0xF118 (regs [(1, 3)])).st = 2 ∧ (cycle 0xF118 (regs [(1, 3)])).buz = true ∧
    (cycle 0xF118 (regs [(1, 1)])).buz = false := by decide
/-- T10, T11. -/
theorem test_skp : (cycle 0xE09E (setKeys 4 (regs [(0, 2)]))).pc = 0x204 ∧ (cycle 0xE09E (regs [(0, 2)])).pc = 0x202 := by
  decide
/-- T14. -/
theorem test_skp_fault : faultOf (cycle 0xE09E (regs [(0, 0x10)])) = (.faulted, 7, 0x10) ∧
    (cycle 0xE09E (regs [(0, 0x10)])).pc = 0x202 := by decide
/-- T12, T13. -/
theorem test_sknp : (cycle 0xE0A1 (regs [(0, 2)])).pc = 0x204 ∧ (cycle 0xE0A1 (setKeys 4 (regs [(0, 2)]))).pc = 0x202 := by
  decide
/-- T15. -/
theorem test_sknp_fault : faultOf (cycle 0xE0A1 (regs [(0, 0xFF)])) = (.faulted, 7, 0xFF) := by decide
/-- T16, at the reset PC. -/
theorem test_ld_x_k_wait : (cycle 0xF50A (State.reset.setDt 3)).pc = 0x200 ∧ (cycle 0xF50A (State.reset.setDt 3)).dt = 2 := by
  decide
/-- T17, at the reset PC. -/
theorem test_ld_x_k : (cycle 0xF50A (setKeys 0x3000 State.reset)).reg 5 = 0xC ∧
    (cycle 0xF50A (setKeys 0x3000 State.reset)).pc = 0x202 := by decide

/-! ## The cycle, reset, ROM load and the ports -/

/-- C6. -/
theorem test_halt : (cycle 0x0000 ((State.reset.setDt 5).setSt 5)).run = .halted ∧
    (cycle 0x0000 ((State.reset.setDt 5).setSt 5)).pc = 0x200 ∧ (cycle 0x0000 ((State.reset.setDt 5).setSt 5)).dt = 5 := by
  decide
/-- C9: 0x0000 is unknown to ExecuteWord. -/
theorem test_execute_zero : faultOf (next (executeWord 0x0000 State.reset)) = (.faulted, 1, 0) ∧
    (next (executeWord 0x0000 State.reset)).pc = 0x200 := by decide
/-- C3. -/
theorem test_fetch_fault : faultOf (next (step (State.reset.setPc 0xFFF))) = (.faulted, 2, 0x1000) ∧
    (next (step (State.reset.setPc 0xFFF))).pc = 0xFFF := by decide
/-- C8. -/
theorem test_unknown : faultOf (cycle 0x8008 (State.reset.setDt 5)) = (.faulted, 1, 0x8008) ∧
    (cycle 0x8008 (State.reset.setDt 5)).pc = 0x202 ∧ (cycle 0x8008 (State.reset.setDt 5)).dt = 5 := by decide
/-- L2: from reset with no ROM, the first cycle halts. -/
theorem test_reset_halts : (next (step State.reset)).run = .halted ∧ (next (step State.reset)).pc = 0x200 := by decide
/-- L7. -/
theorem test_load_rom : (next (loadRom [0x60] (next (loadRom [0x12, 0x34] State.reset)))).mem =
    [(0x200, 0x60), (0x201, 0x34)] := by decide
/-- R41: FONT from 0x000 to 0x04F, the default font's last byte at 0x04F, zero above. -/
theorem test_reset_memory : State.reset.byteAt 0 = 0xF0 ∧ State.reset.byteAt 0x4F = 0x80 ∧ State.reset.byteAt 0x50 = 0 := by
  decide
/-- R43: SP takes 16 and refuses 17; RUN refuses its reserved value. -/
theorem test_debug_write : (debugWrite .sp 16#5 State.reset).sp = 16 ∧ (debugWrite .sp 17#5 State.reset).sp = 0 ∧
    (debugWrite .run 2#2 State.reset).run = .faulted ∧ (debugWrite .run 3#2 State.reset).run = .running := by decide

/-! ## Witnesses: states and operands that meet the hypotheses of the obligations -/

/-- `RowReads`: every row's own pattern meets its mask. -/
theorem witness_rowReads : ∀ r ∈ opcodeTable, r.pattern &&& r.mask = r.pattern := by decide

theorem witness_RetPopsOrUnderflows : 0 < (depth 1 0).sp.val ∧ 0 < (depth 16 0).sp.val ∧ (depth 0 0).sp.val = 0 := by decide

theorem witness_CallPushesOrOverflows : (depth 0 0).sp.val < 16 ∧ (depth 15 0).sp.val < 16 ∧
    (0x2FFF#16 &&& 0xF000 = 0x2000 ∧ (depth 16 0).sp.val = 16) ∧ (0 : Nat) ≠ (depth 15 0).sp.val := by decide

/-- `SubFlagsThenSubtracts`, each of its four clauses, with the flag 1 and at equal operands 0. -/
theorem witness_SubFlagsThenSubtracts :
    ((1 : Byte) = (if ((regs [(1, 5), (2, 4)]).reg 2).toNat < ((regs [(1, 5), (2, 4)]).reg 1).toNat then 1 else 0) ∧
      (1 : Nibble) ≠ 0xF ∧ (2 : Nibble) ≠ 0xF) ∧
    ((0 : Byte) = (if ((regs [(0xF, 5), (2, 5)]).reg 2).toNat < ((regs [(0xF, 5), (2, 5)]).reg 0xF).toNat then 1 else 0) ∧
      (0xF : Nibble) = 0xF ∧ (2 : Nibble) ≠ 0xF) ∧
    ((0 : Byte) = (if ((regs [(1, 4), (0xF, 5)]).reg 0xF).toNat < ((regs [(1, 4), (0xF, 5)]).reg 1).toNat then 1 else 0) ∧
      (1 : Nibble) ≠ 0xF ∧ (0xF : Nibble) = 0xF) ∧
    ((0 : Byte) = (if ((regs [(0xF, 5)]).reg 0xF).toNat < ((regs [(0xF, 5)]).reg 0xF).toNat then 1 else 0) ∧
      (0xF : Nibble) = 0xF) := by decide

/-- `SubnFlagsThenSubtracts`, each of its four clauses. -/
theorem witness_SubnFlagsThenSubtracts :
    ((1 : Byte) = (if ((regs [(1, 4), (2, 5)]).reg 1).toNat < ((regs [(1, 4), (2, 5)]).reg 2).toNat then 1 else 0) ∧
      (1 : Nibble) ≠ 0xF ∧ (2 : Nibble) ≠ 0xF) ∧
    ((0 : Byte) = (if ((regs [(0xF, 5), (2, 5)]).reg 0xF).toNat < ((regs [(0xF, 5), (2, 5)]).reg 2).toNat then 1 else 0) ∧
      (0xF : Nibble) = 0xF ∧ (2 : Nibble) ≠ 0xF) ∧
    ((1 : Byte) = (if ((regs [(1, 4), (0xF, 5)]).reg 1).toNat < ((regs [(1, 4), (0xF, 5)]).reg 0xF).toNat then 1 else 0) ∧
      (1 : Nibble) ≠ 0xF ∧ (0xF : Nibble) = 0xF) ∧
    ((0 : Byte) = (if ((regs [(0xF, 5)]).reg 0xF).toNat < ((regs [(0xF, 5)]).reg 0xF).toNat then 1 else 0) ∧
      (0xF : Nibble) = 0xF) := by decide

/-- `ShrFlagsThenShifts` and `ShlFlagsThenShifts`: both clauses, and both sides of 128. -/
theorem witness_ShiftsFlagsThenShift : (0xE : Nibble) ≠ 0xF ∧ (0xF : Nibble) = 0xF ∧
    128 ≤ ((regs [(1, 0x80)]).reg 1).toNat ∧ ¬ 128 ≤ ((regs [(1, 0x7F)]).reg 1).toNat := by decide

theorem witness_AddIndexChecksRange :
    ((regs [(2, 0x0F)]).setI 0xFF0).i.toNat + (((regs [(2, 0x0F)]).setI 0xFF0).reg 2).toNat ≤ 0xFFF ∧
    0xFFF < ((regs [(2, 0x10)]).setI 0xFF0).i.toNat + (((regs [(2, 0x10)]).setI 0xFF0).reg 2).toNat := by decide

/-- The last address that completes; then the fault at the third, the second and the first byte. -/
theorem witness_LdBcdStoresDigits : dataAddr (State.reset.setI 0xFFD) 2 ≤ 0xFFF ∧
    ((2 : Nat) < 3 ∧ 0xFFF < dataAddr (State.reset.setI 0xFFE) 2 ∧ ∀ j < 2, dataAddr (State.reset.setI 0xFFE) j ≤ 0xFFF) ∧
    ((1 : Nat) < 3 ∧ 0xFFF < dataAddr (State.reset.setI 0xFFF) 1 ∧ ∀ j < 1, dataAddr (State.reset.setI 0xFFF) j ≤ 0xFFF) ∧
    ((0 : Nat) < 3 ∧ 0xFFF < dataAddr (State.reset.setI 0x1000) 0 ∧ ∀ j < 0, dataAddr (State.reset.setI 0x1000) j ≤ 0xFFF) := by
  decide

theorem witness_StoreRegistersWritesRange : dataAddr (State.reset.setI 0xFF0) (0xF : Nibble).toNat ≤ 0xFFF ∧
    0xFFF < dataAddr (State.reset.setI 0xFF1) (0xF : Nibble).toNat ∧ (0 : Nibble) ≤ 0xF := by decide

theorem witness_LoadRegistersReadsRange : dataAddr (State.reset.setI 0xFF0) (0xF : Nibble).toNat ≤ 0xFFF ∧
    (15 ≤ (0xF : Nibble).toNat ∧ 0xFFF < dataAddr (State.reset.setI 0xFF1) 15 ∧
      ∀ j < 15, dataAddr (State.reset.setI 0xFF1) j ≤ 0xFFF) ∧
    (0 ≤ (0 : Nibble).toNat ∧ 0xFFF < dataAddr (State.reset.setI 0x1000) 0 ∧
      ∀ j < 0, dataAddr (State.reset.setI 0x1000) j ≤ 0xFFF) := by decide

/-- A one-row sprite 0xF0 at the lower right corner, its right half clear bits outside the framebuffer. -/
def cornerSprite : State := (bytes 0x300 [0xF0] (regs [(0, 60), (1, 31)])).setI 0x300

theorem witness_RegisterIndexIsChecked : (15 : Nat) < 16 ∧ State.reset.run = .running ∧
    ∃ t, exec .ret State.reset = .next t ∧ t.run = .faulted := ⟨by decide, rfl, _, rfl, rfl⟩

/-- The last pixel with a legal bit and an illegal one; the first column and the first row outside. -/
theorem witness_DrawPixelXorsOneBit : (63 ≤ 63 ∧ 31 ≤ 31 ∧ 1 < 2) ∧ (64 < 65536 ∧ (63 < 64 ∨ 31 < 0)) ∧
    (0 < 65536 ∧ (63 < 0 ∨ 31 < 32)) := by decide

/-- `DrwDrawsSpriteOrFaults`, first clause: all set bits inside, at the corner; a covered pixel; a collision and none. -/
theorem witness_DrwDrawsSpriteOrFaults_inside :
    (∀ r < (1 : Nibble).toNat, dataAddr cornerSprite r ≤ 0xFFF) ∧
    (∀ p q, cornerSprite.SpriteCovers (cornerSprite.reg 0).toNat (cornerSprite.reg 1).toNat (1 : Nibble).toNat p q →
      p ≤ 63 ∧ q ≤ 31) ∧
    cornerSprite.SpriteCovers (cornerSprite.reg 0).toNat (cornerSprite.reg 1).toNat (1 : Nibble).toNat 63 31 := by
  refine ⟨by decide, ?_, ⟨0, 3, by decide, by decide, by unfold State.SpriteSet; decide, by decide, by decide⟩⟩
  rintro p q ⟨r, c, hr, hc, hs, rfl, rfl⟩
  have key : ∀ r : Fin 1, ∀ c : Fin 8, spriteBit (cornerSprite.byteAt (dataAddr cornerSprite r.val)) c.val = true →
      (cornerSprite.reg 0).toNat + c.val ≤ 63 ∧ (cornerSprite.reg 1).toNat + r.val ≤ 31 := by decide
  exact key ⟨r, hr⟩ ⟨c, hc⟩ hs

/-- The same draw over a set pixel collides. -/
theorem witness_SpriteCollides : (cornerSprite.flipPixel 63 31).SpriteCollides 60 31 1 :=
  ⟨63, 31, ⟨0, 3, by decide, by decide, by unfold State.SpriteSet; decide, rfl, rfl⟩, by decide⟩

/-- The second clause, at the second byte and at the first. -/
theorem witness_DrwDrawsSpriteOrFaults_memory :
    (1 < (2 : Nibble).toNat ∧ 0xFFF < dataAddr (State.reset.setI 0xFFF) 1 ∧
      ∀ j < 1, dataAddr (State.reset.setI 0xFFF) j ≤ 0xFFF) ∧
    (0 < (1 : Nibble).toNat ∧ 0xFFF < dataAddr (State.reset.setI 0x1000) 0 ∧
      ∀ j < 0, dataAddr (State.reset.setI 0x1000) j ≤ 0xFFF) := by decide

/-- Where the positions drawn before (r, c) are few, their condition is a finite check. -/
theorem drawnBefore_of_finite {s : State} {x0 y0 r c : Nat}
    (h : ∀ r' : Fin (r + 1), ∀ c' : Fin 8, (r'.val < r ∨ (r'.val = r ∧ c'.val < c)) →
      spriteBit (s.byteAt (dataAddr s r'.val)) c'.val = true → x0 + c'.val ≤ 63 ∧ y0 + r'.val ≤ 31) (r' c' : Nat)
    (hb : DrawnBefore r' c' r c) (hc' : c' < 8) (hs : s.SpriteSet r' c') : x0 + c' ≤ 63 ∧ y0 + r' ≤ 31 :=
  h ⟨r', by unfold DrawnBefore at hb; omega⟩ ⟨c', hc'⟩ hb hs

/-- D6's sprite: column 64 is the first outside. -/
def rightSprite : State := (bytes 0x300 [0xF8] (regs [(0, 60)])).setI 0x300

/-- D7's sprite: row 32 is the first outside. -/
def bottomSprite : State := (bytes 0x300 [0x80, 0x80] (regs [(1, 31)])).setI 0x300

/-- The third clause at the right edge. -/
theorem witness_DrwDrawsSpriteOrFaults_right :
    (∀ j < (1 : Nibble).toNat, dataAddr rightSprite j ≤ 0xFFF) ∧ 0 < (1 : Nibble).toNat ∧ 4 < 8 ∧ rightSprite.SpriteSet 0 4 ∧
    (63 < (rightSprite.reg 0).toNat + 4 ∨ 31 < (rightSprite.reg 1).toNat + 0) ∧
    ∀ r' c', DrawnBefore r' c' 0 4 → c' < 8 → rightSprite.SpriteSet r' c' →
      (rightSprite.reg 0).toNat + c' ≤ 63 ∧ (rightSprite.reg 1).toNat + r' ≤ 31 :=
  ⟨by decide, by decide, by decide, by unfold State.SpriteSet; decide, by decide,
    drawnBefore_of_finite (by decide)⟩

/-- The third clause at the bottom edge. -/
theorem witness_DrwDrawsSpriteOrFaults_bottom :
    (∀ j < (2 : Nibble).toNat, dataAddr bottomSprite j ≤ 0xFFF) ∧ 1 < (2 : Nibble).toNat ∧ 0 < 8 ∧
    bottomSprite.SpriteSet 1 0 ∧ (63 < (bottomSprite.reg 0).toNat + 0 ∨ 31 < (bottomSprite.reg 1).toNat + 1) ∧
    ∀ r' c', DrawnBefore r' c' 1 0 → c' < 8 → bottomSprite.SpriteSet r' c' →
      (bottomSprite.reg 0).toNat + c' ≤ 63 ∧ (bottomSprite.reg 1).toNat + r' ≤ 31 :=
  ⟨by decide, by decide, by decide, by unfold State.SpriteSet; decide, by decide,
    drawnBefore_of_finite (by decide)⟩

/-- `SpriteDrawIsSelfInverse`: a draw that completes, without and with a collision. -/
theorem witness_SpriteDrawIsSelfInverse :
    (∃ s', drawSprite 63 31 [0x80] State.reset = .done false s') ∧
    ∃ s', drawSprite 63 31 [0x80] (State.reset.flipPixel 63 31) = .done true s' := ⟨⟨_, rfl⟩, _, rfl⟩

/-- A state whose next fetch is `w`, at the last PC that can fetch. -/
def atTop (w : Nat) (s : State) : State := (s.setPc 0xFFE).withFetchWord 16 w

theorem witness_LdFromDelayReadsBeforeTick : (atTop 0xF307 State.reset).CanFetch ∧
    decodeWord (atTop 0xF307 State.reset).wordAtPc = .ok (.ldXDT 3) := ⟨⟨rfl, by decide⟩, by decide⟩

theorem witness_LdToDelayIsTickedOnce : ((atTop 0xF115 State.reset).CanFetch ∧
    decodeWord (atTop 0xF115 State.reset).wordAtPc = .ok (.ldDTX 1)) ∧
    State.reset.run = .running ∧ decodeWord 0xF115 = .ok (.ldDTX 1) := ⟨⟨⟨rfl, by decide⟩, by decide⟩, rfl, by decide⟩

/-- Both sides of BUZ's condition. -/
theorem witness_LdToSoundIsTickedOnce : ((atTop 0xF118 (regs [(1, 2)])).CanFetch ∧
    decodeWord (atTop 0xF118 (regs [(1, 2)])).wordAtPc = .ok (.ldSTX 1) ∧
    1 < ((atTop 0xF118 (regs [(1, 2)])).reg 1).toNat ∧ ¬ 1 < ((atTop 0xF118 (regs [(1, 1)])).reg 1).toNat) ∧
    State.reset.run = .running ∧ decodeWord 0xF118 = .ok (.ldSTX 1) := ⟨⟨⟨rfl, by decide⟩, by decide⟩, rfl, by decide⟩

theorem witness_KeySkipsReadOneKey : ((regs [(0, 15)]).reg 0).toNat ≤ 15 ∧ 15 < ((regs [(0, 16)]).reg 0).toNat := by decide

/-- The highest key alone, the lowest key among others, and no key. -/
theorem witness_KeyWaitTakesLowestOrRewinds :
    (15 < 16 ∧ (setKeys 0x8000 State.reset).keys.getLsbD 15 = true ∧
      ∀ j < 15, (setKeys 0x8000 State.reset).keys.getLsbD j = false) ∧
    (0 < 16 ∧ (setKeys 0xFFFF State.reset).keys.getLsbD 0 = true ∧
      ∀ j < 0, (setKeys 0xFFFF State.reset).keys.getLsbD j = false) ∧
    State.reset.keys = 0 := by decide

theorem witness_KeyWaitRepollTicks : (atTop 0xF50A State.reset).CanFetch ∧
    decodeWord (atTop 0xF50A State.reset).wordAtPc = .ok (.ldXK 5) ∧ (atTop 0xF50A State.reset).keys = 0 ∧
    (atTop 0xF50A (setKeys 0x8000 State.reset)).CanFetch ∧
    decodeWord (atTop 0xF50A (setKeys 0x8000 State.reset)).wordAtPc = .ok (.ldXK 5) ∧
    (atTop 0xF50A (setKeys 0x8000 State.reset)).keys ≠ 0 :=
  ⟨⟨rfl, by decide⟩, by decide, rfl, ⟨rfl, by decide⟩, by decide, by decide⟩

theorem witness_HaltSentinelStops : State.reset.CanFetch ∧ State.reset.wordAtPc = 0 := ⟨⟨rfl, by decide⟩, by decide⟩

theorem witness_FetchReadsWordOrFaults : (State.reset.setPc 0xFFE).pc.toNat + 1 ≤ 0xFFF ∧ (State.reset.setPc 0x1000).run = .running ∧
    0xFFF < (State.reset.setPc 0x1000).pc.toNat ∧ 0xFFF < (State.reset.setPc 0xFFFF).pc.toNat ∧
    (State.reset.setPc 0xFFF).pc.toNat = 0xFFF := by decide

/-- Both clauses: an instruction that is fetched at the last place, and one that is not the sentinel. -/
theorem witness_StepRunsDecodedInstruction : (atTop 0x6AFF State.reset).CanFetch ∧
    decodeWord (atTop 0x6AFF State.reset).wordAtPc = .ok (.ldXNN 0xA 0xFF) ∧ (Instr.ldXNN 0xA 0xFF) ≠ .halt :=
  ⟨⟨rfl, by decide⟩, by decide, by decide⟩

/-- An operation that completes. -/
theorem witness_CompletedCycleTicks : (atTop 0x6AFF State.reset).CanFetch ∧
    decodeWord (atTop 0x6AFF State.reset).wordAtPc = .ok (.ldXNN 0xA 0xFF) ∧
    ∃ t, exec (.ldXNN 0xA 0xFF) (beforeExec (.ldXNN 0xA 0xFF) (atTop 0x6AFF State.reset)) = .next t ∧ t.run = .running :=
  ⟨⟨rfl, by decide⟩, by decide, _, rfl, rfl⟩

/-- An operation that raises, and a fetch that faults, each side of the last place that can fetch. -/
theorem witness_FaultedCycleEndsAtOnce :
    ((atTop 0x00EE State.reset).CanFetch ∧ decodeWord (atTop 0x00EE State.reset).wordAtPc = .ok .ret ∧
      ∃ t, exec .ret (beforeExec .ret (atTop 0x00EE State.reset)) = .next t ∧ t.run = .faulted) ∧
    ((atTop 0x00EE State.reset).run = .running ∧ (atTop 0x00EE State.reset).pc.toNat + 1 ≤ 0xFFF ∧
      ∃ t, step (atTop 0x00EE State.reset) = .next t ∧ t.run = .faulted) ∧
    ((State.reset.setPc 0xFFF).run = .running ∧ 0xFFF < (State.reset.setPc 0xFFF).pc.toNat + 1 ∧
      ∃ t, step (State.reset.setPc 0xFFF) = .next t ∧ t.run = .faulted) :=
  ⟨⟨⟨rfl, by decide⟩, by decide, _, rfl, rfl⟩, ⟨rfl, by decide, _, rfl, rfl⟩, rfl, by decide, _, rfl, rfl⟩

theorem witness_UnknownWordsFault : (atTop 0x8008 State.reset).CanFetch ∧
    decodeWord (atTop 0x8008 State.reset).wordAtPc = .error (.unknownOpcode 0x8008) := ⟨⟨rfl, by decide⟩, by decide⟩

theorem witness_StoppedBlockStays : (State.reset.setRun .halted).run ≠ .running ∧
    (State.reset.enterFault .indexOverflow 0x1000).run ≠ .running ∧
    (∃ t, hostMove .cycle (State.reset.setRun .halted) = .next t) ∧ HostMove.cycle ≠ .reset ∧
    (∀ e value, HostMove.cycle ≠ .debugWrite e value) ∧ Element.fcause ≠ .run := by
  refine ⟨by decide, by decide, ⟨_, rfl⟩, ?_, ?_, by decide⟩
  · intro h; cases h
  · intro _ _ h; cases h

theorem witness_ExecuteWordRunsInPlace : State.reset.run = .running ∧
    (decodeWord 0x6105 = .ok (.ldXNN 1 5) ∧ (Instr.ldXNN 1 5) ≠ .halt) ∧
    decodeWord 0x8008 = .error (.unknownOpcode 0x8008) ∧ (0 : Word) = 0 ∧ (State.reset.setRun .halted).run ≠ .running := by
  decide

/-- Registers stored over the word at PC, at the top of memory. -/
def selfModifying : State := ((regs [(0xE, 0x60), (0xF, 0x2A)]).setI 0xFF0).setPc 0xFFE

theorem witness_StoredCodeIsFetched : dataAddr selfModifying (0xF : Nibble).toNat ≤ 0xFFF ∧ (0xE : Nibble) < 0xF ∧
    (0xF : Nibble) = 0xE + 1 ∧ selfModifying.pc.toNat = dataAddr selfModifying (0xE : Nibble).toNat ∧
    ∃ t, exec (.stRegs 0xF) selfModifying = .next t := ⟨by decide, by decide, by decide, by decide, _, rfl⟩

/-- PC at the last place that can fetch, which stays, and PC one above it, which moves to 0x200; an address outside the
word. -/
theorem witness_PlacedWordIsFetchedNext : (State.reset.setPc 0xFFE).pc.toNat + 1 ≤ 0xFFF ∧
    ¬ (State.reset.setPc 0xFFF).pc.toNat + 1 ≤ 0xFFF ∧
    (State.reset.setPc 0xFFF).withFetchWord 16 0x6AFF = (State.reset.setPc 0xFFF).withFetchWord 16 0x6AFF ∧
    ((State.reset.setPc 0xFFF).withFetchWord 16 0x6AFF).pc = 0x200 ∧
    (0x202 : Nat) ≠ ((State.reset.setPc 0xFFF).withFetchWord 16 0x6AFF).pc.toNat ∧
    (0x202 : Nat) ≠ ((State.reset.setPc 0xFFF).withFetchWord 16 0x6AFF).pc.toNat + 1 :=
  ⟨by decide, by decide, rfl, by decide, by decide, by decide⟩

theorem witness_DecodeEncodeAgree : decodeWord 0x9AB7 = .ok (.sneXY 0xA 0xB 7) ∧ decodeWord 0xF565 = .ok (.ldRegs 5) := by
  decide

theorem witness_ResetBuildsInitialState : (15 : Nat) < 16 ∧ (79 : Nat) < 80 ∧ (80 : Nat) ≤ 80 := by decide

/-- The longest ROM that fits, the shortest that does not, and a stopped block. -/
theorem witness_LoadRomPlacesBytes : State.reset.run = .running ∧ (List.replicate 0xE00 (0x11 : Byte)).length ≤ 0xE00 ∧
    0xE00 < (List.replicate 0xE01 (0x11 : Byte)).length ∧ (State.reset.setRun .halted).run ≠ .running ∧
    (List.replicate 0xE00 (0x11 : Byte))[0xDFF]? = some 0x11 ∧ (0x1FF < 0x200 ∨ 0x200 + 1 ≤ 0x1FF) := by
  rw [List.length_replicate, List.length_replicate, List.getElem?_replicate, if_pos (by decide)]
  exact ⟨rfl, le_rfl, by decide, by decide, rfl, .inl (by decide)⟩

/-- SP and RUN at the last value taken and the first refused, and another element. -/
theorem witness_DebugWriteSetsOneElement : Element.sp.accepts 16#5 ∧ ¬ Element.sp.accepts 17#5 ∧ Element.run.accepts 2#2 ∧
    ¬ Element.run.accepts 3#2 ∧ Element.finfo.accepts 0#32 ∧ Element.sp ≠ Element.run := by
  unfold Element.accepts; decide

theorem witness_InstructionsRaiseOnlyListedFaults : State.reset.run = .running := rfl

/-- A destination and another register, a part changed and another part; the bytes, pixels and slots just outside what an
instruction may change, beside the last one inside. -/
theorem witness_EveryInstructionKeepsItsFrame : (∃ t, exec (.sub 1 2) State.reset = .next t) ∧ ¬ mayWrite (.sub 1 2) 2 ∧
    ¬ mayWrite (.ldRegs 3) 4 ∧ Part.counter ∉ mayChange (.ldBX 0) ∧
    (mayStore (.ldBX 0) (State.reset.setI 0x300) 0x302 ∧ ¬ mayStore (.ldBX 0) (State.reset.setI 0x300) 0x303) ∧
    (mayStore (.stRegs 3) (State.reset.setI 0x300) 0x303 ∧ ¬ mayStore (.stRegs 3) (State.reset.setI 0x300) 0x304) ∧
    (mayPush (.call 0x300) (depth 15 0) 15 ∧ ¬ mayPush (.call 0x300) (depth 15 0) 14) := by
  refine ⟨⟨_, rfl⟩, ?_, ?_, by decide, ?_, ?_, ?_⟩
  · unfold mayWrite; decide
  · unfold mayWrite; decide
  · unfold mayStore; refine ⟨⟨2, by decide, by decide⟩, ?_⟩
    rintro ⟨j, h, e⟩; rw [dataAddr_eq, show (State.reset.setI 0x300).i.toNat = 0x300 from rfl] at e; omega
  · unfold mayStore; refine ⟨⟨3, by decide, by decide⟩, ?_⟩
    rintro ⟨j, h, e⟩
    rw [dataAddr_eq, show (State.reset.setI 0x300).i.toNat = 0x300 from rfl] at e
    have : j ≤ 3 := h
    omega
  · unfold mayPush; decide

/-- The pixels of the sprite at the corner, and one beside them. -/
theorem witness_EveryInstructionKeepsItsFrame_draw : mayDraw (.drw 0 1 1) cornerSprite 63 31 ∧
    ¬ mayDraw (.drw 0 1 1) cornerSprite 59 31 := by
  refine ⟨witness_DrwDrawsSpriteOrFaults_inside.2.2, ?_⟩
  rintro ⟨r, c, _, _, _, e, _⟩
  rw [show (cornerSprite.reg 0).toNat = 60 by decide] at e
  omega

/-- A state at every bound of the invariant: I, PC, a slot, the fault record and BUZ. -/
def atBounds : State :=
  { (State.reset.enterFault .invalidPixelValue 3) with
    i := 0xFFF, pc := 0x10FE, stk := Vector.replicate 16 0x1000, st := 1, buz := true, mem := [(0xFFF, 1)] }

theorem witness_SoundKeptByEveryStep_bounds : atBounds.Sound ∧ step atBounds = .next atBounds where
  left :=
    { memory := by unfold State.MemoryCanonical; decide
      record := by unfold State.FaultRecordSound; decide
      index := by unfold State.IndexBounded; decide
      counter := by unfold State.CounterBounded; decide
      buzzer := by unfold State.BuzzerLevel; decide }
  right := rfl

/-- A running state at the last PC that can fetch, whose next word skips: PC goes from 0xFFE to 0x1002. -/
def skipsAtTop : State := atTop 0x3000 State.reset

theorem witness_SoundKeptByEveryStep : skipsAtTop.Sound ∧ (next (step skipsAtTop)).pc = 0x1002 where
  left :=
    { memory := by unfold State.MemoryCanonical; decide
      record := by unfold State.FaultRecordSound; decide
      index := by unfold State.IndexBounded; decide
      counter := by unfold State.CounterBounded; decide
      buzzer := by unfold State.BuzzerLevel; decide }
  right := by decide

/-- One run with each kind of move. -/
def aRun : List HostMove := [.reset, .loadRom [0x60, 0x2A], .setKeys 1, .cycle]

theorem witness_SoundKeptByEveryRun :
    (∀ m ∈ aRun, m = .reset ∨ m = .cycle ∨ (∃ rom, m = .loadRom rom) ∨ ∃ keys, m = .setKeys keys) ∧
    ∃ t, hostMoves aRun skipsAtTop = .next t := by
  refine ⟨fun m hm => ?_, _, rfl⟩
  simp only [aRun, List.mem_cons, List.not_mem_nil, or_false] at hm
  rcases hm with rfl | rfl | rfl | rfl <;> simp

theorem witness_MemoryCanonicalKeptByEveryMove : atBounds.MemoryCanonical ∧
    ∃ t, hostMove (.debugWrite (.mem 0xFFF) 0#8) atBounds = .next t :=
  ⟨by unfold State.MemoryCanonical; decide, _, rfl⟩

end Sys2Proof.Tests
end

section
/-! PROOFS. What the writes of an instruction keep: one lemma says that `exec` answers a next state and keeps every property
that the instruction's own writes keep. The frames, the fault codes and the invariants of 10_state.md are taken from it. -/

namespace Sys2Proof.Machine

/-! ## Writes of an instruction -/

/-- Every write that the instruction may make, and fault entry where it may raise, keeps the property. -/
structure KeptByWrites (i : Instr) (P : State → Prop) : Prop where
  fault : .runState ∈ mayChange i → KeptByFault P
  halt : i = .halt → ∀ s, P s → P (s.setRun .halted)
  reg : ∀ s x b, mayWrite i x → P s → P (s.setReg x b)
  counter : .counter ∈ mayChange i → ∀ s w, P s → P (s.setPc w)
  stack : .stack ∈ mayChange i → ∀ s stk sp, P s → P { s with stk := stk, sp := sp }
  index : .index ∈ mayChange i → ∀ s w, P s → P (s.setI w)
  memory : .memory ∈ mayChange i → ∀ s a b, a ≤ 0xFFF → P s → P (s.setByte a b)
  pixel : .display ∈ mayChange i → ∀ s x y, P s → P (s.flipPixel x y)
  clear : .display ∈ mayChange i → ∀ s, P s → P s.clearDisplay
  delay : .delay ∈ mayChange i → ∀ s b, P s → P (s.setDt b)
  sound : .sound ∈ mayChange i → ∀ s b, P s → P (s.setSt b)
  sample : .samples ∈ mayChange i → ∀ s, P s → P s.countSample

/-- `loadRegs_ends` with the writes bounded by the range of registers loaded. -/
theorem loadRegs_ends_within {P : State → Prop} (hf : KeptByFault P) : ∀ (count k : Nat) (s : State), k + count ≤ 16 →
    (∀ s (x : Nibble) b, x.toNat < k + count → P s → P (s.setReg x b)) → P s → (loadRegs count k s).Ends P := by
  intro count
  induction count with
  | zero => exact fun _ _ _ _ h => h
  | succ count ih =>
    intro k s hk hw h
    refine (memRead_ends hf _ h).bind (fun b u hu => ?_) fun _ hu => hu
    rw [regWrite_done b u (by omega), Exec.bind_done]
    exact ih (k + 1) _ (by omega) (fun t x b' hx => hw t x b' (by omega)) (hw u _ b (by simp; omega) hu)

section
variable {P : State → Prop} {s : State}

theorem skipIf_keeps (hw : ∀ s w, P s → P (s.setPc w)) (c : Bool) (hs : P s) : P (skipIf c s) := by
  unfold skipIf; split
  · exact hw s _ hs
  · exact hs

theorem push_ends (hf : KeptByFault P) (hw : ∀ s stk sp, P s → P { s with stk := stk, sp := sp }) (w : Word) (info : Nat)
    (hs : P s) : (push w info s).Ends P := by
  unfold push; split
  · exact hw s _ _ hs
  · exact hf s _ _ hs

theorem pop_ends (hf : KeptByFault P) (hw : ∀ s stk sp, P s → P { s with stk := stk, sp := sp }) (hs : P s) :
    (pop s).Ends P := by
  unfold pop; split
  · exact hw s s.stk _ hs
  · exact hf s _ _ hs

end

/-- Every instruction answers a next state, and a property that its writes keep holds in it. -/
theorem exec_keeps {i : Instr} {P : State → Prop} (hk : KeptByWrites i P) {s : State} (hs : P s) :
    NextWith (exec i s) P := by
  cases i with
  | cls => exact ⟨_, rfl, hk.clear (.head _) s hs⟩
  | ret =>
    exact Exec.Ends.outcome ((pop_ends (hk.fault (by decide)) (hk.stack (by decide)) hs).bind
      (fun w t ht => hk.counter (by decide) t w ht) fun _ ht => ht)
  | jp nnn => exact ⟨_, rfl, hk.counter (.head _) s _ hs⟩
  | call nnn =>
    exact Exec.Ends.outcome ((push_ends (hk.fault (by simp [mayChange])) (hk.stack (by simp [mayChange])) _ _ hs).bind
      (fun _ t ht => hk.counter (.head _) t _ ht) fun _ ht => ht)
  | seXNN x nn => exact ⟨_, rfl, skipIf_keeps (hk.counter (.head _)) _ hs⟩
  | sneXNN x nn => exact ⟨_, rfl, skipIf_keeps (hk.counter (.head _)) _ hs⟩
  | seXY x y n => exact ⟨_, rfl, skipIf_keeps (hk.counter (.head _)) _ hs⟩
  | sneXY x y n => exact ⟨_, rfl, skipIf_keeps (hk.counter (.head _)) _ hs⟩
  | ldXNN x nn => exact ⟨_, rfl, hk.reg s x _ rfl hs⟩
  | addXNN x nn => exact ⟨_, rfl, hk.reg s x _ rfl hs⟩
  | ldXY x y => exact ⟨_, rfl, hk.reg s x _ rfl hs⟩
  | orXY x y => exact ⟨_, rfl, hk.reg s x _ rfl hs⟩
  | andXY x y => exact ⟨_, rfl, hk.reg s x _ rfl hs⟩
  | xorXY x y => exact ⟨_, rfl, hk.reg s x _ rfl hs⟩
  | addXY x y => exact ⟨_, rfl, hk.reg s x _ rfl hs⟩
  | sub x y => exact ⟨_, rfl, hk.reg _ x _ (.inl rfl) (hk.reg s vf _ (.inr rfl) hs)⟩
  | shr x y => exact ⟨_, rfl, hk.reg _ x _ (.inl rfl) (hk.reg s vf _ (.inr rfl) hs)⟩
  | subn x y => exact ⟨_, rfl, hk.reg _ x _ (.inl rfl) (hk.reg s vf _ (.inr rfl) hs)⟩
  | shl x y => exact ⟨_, rfl, hk.reg _ x _ (.inl rfl) (hk.reg s vf _ (.inr rfl) hs)⟩
  | ldI nnn => exact ⟨_, rfl, hk.index (.head _) s _ hs⟩
  | jpV0 nnn => exact ⟨_, rfl, hk.counter (.head _) s _ hs⟩
  | rnd x nn => exact ⟨_, rfl, hk.reg _ x _ rfl (hk.sample (.head _) s hs)⟩
  | drw x y n =>
    have hf : KeptByFault P := hk.fault (by simp [mayChange])
    exact Exec.Ends.outcome ((readSprite_ends hf _ _ s hs).bind (fun bytes t ht =>
      (drawRows_ends hf (hk.pixel (.head _)) _ bytes _ false t ht).bind (fun _ u hu => hk.reg u vf _ rfl hu)
        fun _ hu => hu) fun _ ht => ht)
  | skp x =>
    exact Exec.Ends.outcome ((keyRead_ends (hk.fault (by simp [mayChange])) _ hs).bind
      (fun p t ht => skipIf_keeps (hk.counter (.head _)) p ht) fun _ ht => ht)
  | sknp x =>
    exact Exec.Ends.outcome ((keyRead_ends (hk.fault (by simp [mayChange])) _ hs).bind
      (fun p t ht => skipIf_keeps (hk.counter (.head _)) (!p) ht) fun _ ht => ht)
  | ldXDT x => exact ⟨_, rfl, hk.reg s x _ rfl hs⟩
  | ldXK x =>
    show NextWith (execLdXK x s) P
    unfold execLdXK; split
    · exact ⟨_, rfl, hk.reg s x _ rfl hs⟩
    · exact ⟨_, rfl, hk.counter (.head _) s _ hs⟩
  | ldDTX x => exact ⟨_, rfl, hk.delay (.head _) s _ hs⟩
  | ldSTX x => exact ⟨_, rfl, hk.sound (.head _) s _ hs⟩
  | addIX x =>
    show NextWith (execAddIX x s) P
    unfold execAddIX; dsimp only; split
    · exact ⟨_, rfl, hk.fault (by simp [mayChange]) s _ _ hs⟩
    · exact ⟨_, rfl, hk.index (.head _) s _ hs⟩
  | ldFX x => exact ⟨_, rfl, hk.index (.head _) s _ hs⟩
  | ldBX x => exact (storeBytes_ends (hk.fault (by simp [mayChange])) (hk.memory (.head _)) _ _ s hs).outcome
  | stRegs x =>
    show NextWith (execStRegs x s) P
    have hf : KeptByFault P := hk.fault (by simp [mayChange])
    unfold execStRegs; split
    · exact ⟨_, rfl, hf s _ _ hs⟩
    · exact (storeRegs_ends hf (hk.memory (.head _)) _ _ s hs).outcome
  | ldRegs x =>
    refine (loadRegs_ends_within (hk.fault (.head _)) _ _ s ?_ (fun t z b hz => hk.reg t z b ?_) hs).outcome
    · have := x.isLt; omega
    · show z.toNat ≤ x.toNat
      omega
  | halt => exact ⟨_, rfl, hk.halt rfl s hs⟩

theorem true_keptByWrites (i : Instr) : KeptByWrites i fun _ => True where
  fault _ _ _ _ _ := trivial
  halt _ _ _ := trivial
  reg _ _ _ _ _ := trivial
  counter _ _ _ _ := trivial
  stack _ _ _ _ _ := trivial
  index _ _ _ _ := trivial
  memory _ _ _ _ _ _ := trivial
  pixel _ _ _ _ _ := trivial
  clear _ _ _ := trivial
  delay _ _ _ _ := trivial
  sound _ _ _ _ := trivial
  sample _ _ _ := trivial

/-- Every instruction answers a next state. -/
theorem exec_answers (i : Instr) (s : State) : ∃ t, exec i s = .next t := by
  obtain ⟨t, ht, _⟩ := exec_keeps (true_keptByWrites i) (s := s) trivial
  exact ⟨t, ht⟩

/-- `exec_keeps` for a next state already named. -/
theorem exec_keeps_next {i : Instr} {P : State → Prop} (hk : KeptByWrites i P) {s t : State} (hs : P s)
    (ht : exec i s = .next t) : P t := by
  obtain ⟨u, hu, hP⟩ := exec_keeps hk hs
  rw [hu] at ht
  cases ht
  exact hP

/-! ## The frame of an instruction -/

/-- From `s` to `t` only the registers and the parts that the instruction may change have changed. -/
def InFrame (i : Instr) (s t : State) : Prop :=
  (∀ z, ¬ mayWrite i z → t.reg z = s.reg z) ∧ ∀ p, p ∉ mayChange i → p.same s t

theorem InFrame.trans_onlyChanges {i : Instr} {s t u : State} {regs : List Nibble} {parts : List Part} (h : InFrame i s t)
    (hu : OnlyChanges regs parts t u) (hr : ∀ z ∈ regs, mayWrite i z) (hp : ∀ p ∈ parts, p ∈ mayChange i) :
    InFrame i s u :=
  ⟨fun z hz => (hu.1 z fun hm => hz (hr z hm)).trans (h.1 z hz),
    fun p hn => Part.same_trans (h.2 p hn) (hu.2 p fun hm => hn (hp p hm))⟩

/-- `trans_onlyChanges` for a change of one part. -/
theorem InFrame.trans_part {i : Instr} {s t u : State} {p : Part} (h : InFrame i s t) (hu : OnlyChanges [] [p] t u)
    (hp : p ∈ mayChange i) : InFrame i s u :=
  h.trans_onlyChanges hu (fun _ hm => absurd hm List.not_mem_nil) (by simpa using hp)

theorem frame_setStack (s : State) (stk : Vector Word 16) (sp : Fin 17) :
    OnlyChanges [] [.stack] s { s with stk := stk, sp := sp } := by
  refine .of_eq (fun z _ => rfl) ?_ ?_ ?_ ?_ ?_ ?_ ?_ ?_ ?_ ?_ ?_ <;> simp [State.byteAt]

theorem inFrame_keptByWrites (i : Instr) (s : State) : KeptByWrites i (InFrame i s) where
  fault hp t e info h := h.trans_part (frame_enterFault t e info) hp
  halt hi t h := h.trans_part (frame_setRun t .halted) (by subst hi; exact .head _)
  reg t x b hx h := h.trans_onlyChanges (frame_setReg t x b) (by simpa using hx) fun _ hm => absurd hm List.not_mem_nil
  counter hp t w h := h.trans_part (frame_setPc t w) hp
  stack hp t stk sp h := h.trans_part (frame_setStack t stk sp) hp
  index hp t w h := h.trans_part (frame_setI t w) hp
  memory hp t a b _ h := h.trans_part (frame_setByte t a b) hp
  pixel hp t x y h := h.trans_part (t.displayOnly_flipPixel x y).frame hp
  clear hp t h := h.trans_part (frame_clearDisplay t) hp
  delay hp t b h := h.trans_part (frame_setDt t b) hp
  sound hp t b h := h.trans_part (frame_setSt t b) hp
  sample hp t h := h.trans_part (frame_countSample t) hp

theorem exec_inFrame {i : Instr} {s t : State} (h : exec i s = .next t) : InFrame i s t :=
  exec_keeps_next (inFrame_keptByWrites i s) ⟨fun _ _ => rfl, fun p _ => p.same_refl s⟩ h

/-- A part that the instruction may not change is the same after it. -/
theorem exec_same {i : Instr} {s t : State} (h : exec i s = .next t) {p : Part} (hp : p ∉ mayChange i) : p.same s t :=
  (exec_inFrame h).2 p hp

/-- The bytes outside an instruction's stores are unchanged. -/
theorem exec_byteAt {i : Instr} {s t : State} (h : exec i s = .next t) {a : Nat} (ha : ¬ mayStore i s a) :
    t.byteAt a = s.byteAt a := by
  cases i
  case ldBX x =>
    refine Exec.outcome_eq_next h (storeBytes_kept _ _ s) a ?_
    by_contra hc
    exact ha ⟨a - dataAddr s 0, by simp [bcdBytes] at hc; omega, by simp only [dataAddr_eq] at *; omega⟩
  case stRegs x =>
    change execStRegs x s = _ at h
    unfold execStRegs at h
    split at h
    · cases h; rfl
    · exact Exec.outcome_eq_next h (storeRegs_kept _ _ s) a fun j _ hj e => ha ⟨j, by omega, e⟩
  all_goals exact exec_same h (p := .memory) (by simp [mayChange]) a

theorem State.pixel_of_fb_eq {s t : State} (h : t.fb = s.fb) (p q : Nat) : t.pixel p q = s.pixel p q := by
  simp [State.pixel, h]

/-- The rows of the sprite at I, read from memory, cover what the sprite covers. -/
theorem bytesCover_spriteBytes (s : State) (x0 y0 n p q : Nat) :
    BytesCover x0 y0 ((List.range n).map fun j => s.byteAt (dataAddr s (0 + j))) p q ↔ s.SpriteCovers x0 y0 n p q := by
  constructor
  · rintro ⟨r, c, row, hr, hc, hset, hp, hq⟩
    obtain ⟨hrn, rfl⟩ : r < n ∧ s.byteAt (dataAddr s r) = row := by
      simpa [List.getElem?_map, List.getElem?_range, Option.map_eq_some_iff, List.getElem?_eq_some_iff] using hr
    exact ⟨r, c, hrn, hc, hset, hp, hq⟩
  · rintro ⟨r, c, hrn, hc, hset, hp, hq⟩
    exact ⟨r, c, s.byteAt (dataAddr s r), by simp [hrn], hc, hset, hp, hq⟩

/-- A sprite read completes without a change, or raises MemOutOfRange. -/
theorem readSprite_cases (n : Nat) (s : State) :
    readSprite n 0 s = .done ((List.range n).map fun j => s.byteAt (dataAddr s (0 + j))) s ∨
      ∃ a, readSprite n 0 s = .raised (s.enterFault .memOutOfRange a) := by
  by_cases h : n = 0 ∨ dataAddr s (n - 1) ≤ 0xFFF
  · exact .inl (readSprite_done n 0 s fun j hj => by simp only [dataAddr_eq] at *; omega)
  · rw [dataAddr_eq] at h
    refine .inr ⟨_, readSprite_raised n 0 (0x1000 - s.i.toNat) s (by omega) ?_ fun j hj => ?_⟩ <;>
      (rw [dataAddr_eq]; omega)

/-- The pixels that an instruction does not draw on are unchanged. -/
theorem exec_pixel {i : Instr} {s t : State} (h : exec i s = .next t) {p q : Nat} (hpq : ¬ mayDraw i s p q) :
    t.pixel p q = s.pixel p q := by
  cases i
  case cls => exact absurd trivial hpq
  case drw x y n =>
    refine Exec.outcome_eq_next h (P := fun t => t.pixel p q = s.pixel p q) ?_
    rcases readSprite_cases n.toNat s with hr | ⟨a, hr⟩
    · rw [hr, Exec.bind_done]
      have hc := (bytesCover_spriteBytes s (s.reg x).toNat (s.reg y).toNat n.toNat p q).not.2 hpq
      exact (drawRows_kept _ _ _ false s).bind (fun _ u hu => hu p q hc) fun u hu => hu p q hc
    · rw [hr]; exact s.enterFault_pixel _ a p q
  all_goals exact State.pixel_of_fb_eq (exec_same h (p := .display) (by simp [mayChange])) p q

/-- A push writes the slot at SP alone, and none when it raises. -/
theorem push_slots (w : Word) (info : Nat) (s : State) :
    (push w info s).Ends fun t => ∀ k : Nat, k ≠ s.sp.val → t.stk[k]? = s.stk[k]? := by
  unfold push; split
  · next h => exact fun k hk => Vector.getElem?_set_ne h hk.symm
  · exact fun _ _ => rfl

/-- A pop keeps every slot (10_state.md R30). -/
theorem pop_slots (s : State) : (pop s).Ends fun t => t.stk = s.stk := by
  unfold pop; split <;> rfl

/-- The stack slots that an instruction does not push to are unchanged. -/
theorem exec_slot {i : Instr} {s t : State} (h : exec i s = .next t) {k : Nat} (hk : ¬ mayPush i s k) :
    t.stk[k]? = s.stk[k]? := by
  cases i
  case ret =>
    refine congrArg (·[k]?) (Exec.outcome_eq_next h (P := fun t => t.stk = s.stk) ?_)
    exact (pop_slots s).bind (fun _ _ hu => hu) fun _ hu => hu
  case call nnn =>
    refine Exec.outcome_eq_next h (P := fun t => t.stk[k]? = s.stk[k]?) ?_
    exact (push_slots _ _ s).bind (fun _ u hu => hu k hk) fun u hu => hu k hk
  all_goals exact congrArg (·[k]?) (exec_same h (p := .stack) (by simp [mayChange])).1

/-- Settles O52: the registers and parts are those of `exec_inFrame`, and within a part the transfers, the rasteriser and the
stack leave alone what they do not name. -/
theorem everyInstructionKeepsItsFrame : Obligations.EveryInstructionKeepsItsFrame := fun _ _ _ h =>
  ⟨(exec_inFrame h).1, (exec_inFrame h).2, fun _ => exec_byteAt h, fun _ _ => exec_pixel h, fun _ => exec_slot h⟩

end Sys2Proof.Machine
end

section
/-! PROOFS. The faults of an instruction (60_exceptions.md R221) and the check of a register index (10_state.md R23). -/

namespace Sys2Proof.Machine

/-! ## The faults that a part of an operation raises -/

/-- A part that completes leaves RUN Running, and one that raises leaves it Faulted with one of the codes. -/
def Exec.RaisesOnly {α : Type} (codes : List (BitVec 4)) (r : Exec α) : Prop :=
  match r with
  | .done _ t => t.run = .running
  | .raised t => t.run = .faulted ∧ t.fcause ∈ codes

section
variable {codes : List (BitVec 4)} {s : State}

theorem Exec.RaisesOnly.bind {α β : Type} {r : Exec α} {f : α → State → Exec β} (h : r.RaisesOnly codes)
    (hf : ∀ a t, t.run = .running → (f a t).RaisesOnly codes) : (r.bind f).RaisesOnly codes := by
  cases r with
  | done a t => exact hf a t h
  | raised t => exact h

theorem raisesOnly_enterFault {α : Type} (e : Cause) (info : Nat) (s : State) (he : e.code ∈ codes) :
    (Exec.raised (α := α) (s.enterFault e info)).RaisesOnly codes := ⟨rfl, he⟩

theorem memRead_raisesOnly (hc : 2 ∈ codes) (a : Nat) (hs : s.run = .running) : (memRead a s).RaisesOnly codes := by
  unfold memRead; split
  · exact hs
  · exact raisesOnly_enterFault _ _ s hc

theorem memWrite_raisesOnly (hc : 2 ∈ codes) (a : Nat) (b : Byte) (hs : s.run = .running) :
    (memWrite a b s).RaisesOnly codes := by
  unfold memWrite; split
  · exact hs
  · exact raisesOnly_enterFault _ _ s hc

theorem keyRead_raisesOnly (hc : 7 ∈ codes) (k : Nat) (hs : s.run = .running) : (keyRead k s).RaisesOnly codes := by
  unfold keyRead; split
  · exact hs
  · exact raisesOnly_enterFault _ _ s hc

theorem push_raisesOnly (hc : 5 ∈ codes) (w : Word) (info : Nat) (hs : s.run = .running) :
    (push w info s).RaisesOnly codes := by
  unfold push; split
  · exact hs
  · exact raisesOnly_enterFault _ _ s hc

theorem pop_raisesOnly (hc : 6 ∈ codes) (hs : s.run = .running) : (pop s).RaisesOnly codes := by
  unfold pop; split
  · exact hs
  · exact raisesOnly_enterFault _ _ s hc

end

theorem skipIf_run (c : Bool) (s : State) : (skipIf c s).run = s.run := by
  unfold skipIf; split <;> rfl

section
variable {codes : List (BitVec 4)}

theorem storeBytes_raisesOnly (hc : 2 ∈ codes) (bs : List Byte) : ∀ (a : Nat) (s : State), s.run = .running →
    (storeBytes bs a s).RaisesOnly codes := by
  induction bs with
  | nil => exact fun _ _ hs => hs
  | cons b bs ih => exact fun a s hs => (memWrite_raisesOnly hc a b hs).bind fun _ t ht => ih (a + 1) t ht

/-- A load of registers within 0 to 15 raises no RegIndexOutOfRange. -/
theorem loadRegs_raisesOnly (hc : 2 ∈ codes) : ∀ (count k : Nat) (s : State), k + count ≤ 16 → s.run = .running →
    (loadRegs count k s).RaisesOnly codes := by
  intro count
  induction count with
  | zero => exact fun _ _ _ hs => hs
  | succ count ih =>
    intro k s hk hs
    refine (memRead_raisesOnly hc _ hs).bind fun b t ht => ?_
    rw [regWrite_done b t (by omega), Exec.bind_done]
    exact ih (k + 1) _ (by omega) ht

theorem readSprite_raisesOnly (hc : 2 ∈ codes) (n : Nat) {s : State} (hs : s.run = .running) :
    (readSprite n 0 s).RaisesOnly codes := by
  rcases readSprite_cases n s with h | ⟨a, h⟩ <;> rw [h]
  · exact hs
  · exact raisesOnly_enterFault _ a s hc

/-- The draw of a row draws set bits only, so it raises no InvalidPixelValue. -/
theorem drawRow_raisesOnly (hc : 8 ∈ codes) (x0 y : Nat) (row : Byte) : ∀ (count c : Nat) (col : Bool) (s : State),
    s.run = .running → (drawRow x0 y row count c col s).RaisesOnly codes := by
  intro count
  induction count with
  | zero => exact fun _ _ _ hs => hs
  | succ count ih =>
    intro c col s hs
    rw [drawRow]; split
    · by_cases hout : 63 < x0 + c ∨ 31 < y
      · rw [drawPixel_raised 1 s hout]
        exact raisesOnly_enterFault _ _ s hc
      · rw [drawPixel_done s (by omega) (by omega), Exec.bind_done]
        exact ih _ _ _ (by rwa [State.flipPixel_run])
    · exact ih _ _ s hs

theorem drawRows_raisesOnly (hc : 8 ∈ codes) (x0 : Nat) (rows : List Byte) : ∀ (y : Nat) (col : Bool) (s : State),
    s.run = .running → (drawRows x0 rows y col s).RaisesOnly codes := by
  induction rows with
  | nil => exact fun _ _ _ hs => hs
  | cons row rows ih =>
    exact fun y col s hs => (drawRow_raisesOnly hc x0 y row 8 0 col s hs).bind fun col' t ht => ih (y + 1) col' t ht

end

/-! ## The faults of an instruction -/

/-- RUN after an operation, from how it ends. -/
theorem Exec.RaisesOnly.outcome {α : Type} {codes : List (BitVec 4)} {r : Exec α} (h : r.RaisesOnly codes) {t : State}
    (ht : r.outcome = .next t) : t.run = .running ∨ t.run = .faulted ∧ t.fcause ∈ codes := by
  cases r with
  | done a u => cases ht; exact .inl h
  | raised u => cases ht; exact .inr h

/-- An instruction but the sentinel, executed in a Running block, leaves RUN Running, or Faulted with a code that R221 lists
for it. -/
theorem exec_run {i : Instr} {s t : State} (hi : i ≠ .halt) (hs : s.run = .running) (h : exec i s = .next t) :
    t.run = .running ∨ t.run = .faulted ∧ t.fcause ∈ mayRaise i := by
  cases i
  case halt => exact absurd rfl hi
  case ret =>
    refine Exec.RaisesOnly.outcome ?_ h
    exact (pop_raisesOnly (.head _) hs).bind fun _ _ ht => ht
  case call nnn =>
    refine Exec.RaisesOnly.outcome ?_ h
    exact (push_raisesOnly (.head _) _ _ hs).bind fun _ _ ht => ht
  case drw x y n =>
    refine Exec.RaisesOnly.outcome ?_ h
    exact (readSprite_raisesOnly (.head _) _ hs).bind fun bytes u hu =>
      (drawRows_raisesOnly (.tail _ (.head _)) _ bytes _ _ u hu).bind fun _ _ ht => ht
  case skp x =>
    refine Exec.RaisesOnly.outcome ?_ h
    exact (keyRead_raisesOnly (.head _) _ hs).bind fun p u hu => (skipIf_run p u).trans hu
  case sknp x =>
    refine Exec.RaisesOnly.outcome ?_ h
    exact (keyRead_raisesOnly (.head _) _ hs).bind fun p u hu => (skipIf_run (!p) u).trans hu
  case addIX x =>
    change execAddIX x s = _ at h
    unfold execAddIX at h; dsimp only at h; split at h
    · cases h; exact .inr ⟨rfl, .head _⟩
    · cases h; exact .inl hs
  case ldBX x => exact (storeBytes_raisesOnly (.head _) _ _ s hs).outcome h
  case stRegs x =>
    change execStRegs x s = _ at h
    unfold execStRegs at h; split at h
    · cases h; exact .inr ⟨rfl, .head _⟩
    · next ha =>
      have hx := x.isLt
      change ¬ 0xFFF < s.i.toNat + x.toNat at ha
      obtain ⟨u, hu, ⟨m, rfl⟩, _⟩ := storeRegs_done (x.toNat + 1) 0 s (by omega) fun j _ hj => by
        rw [dataAddr_eq]; omega
      rw [hu] at h; cases h; exact .inl hs
  case ldRegs x => exact (loadRegs_raisesOnly (.head _) _ _ s (by have := x.isLt; omega) hs).outcome h
  all_goals exact .inl ((exec_same h (p := .runState) (by simp [mayChange])).1.trans hs)

/-- R221 lists no code above 8, so the register index fault is on no list. -/
theorem regIndex_not_mem_mayRaise (i : Instr) : 9 ∉ mayRaise i := by
  cases i <;> simp [mayRaise]

/-! ## Register indexes -/

theorem regRead_field (s : State) (z : Nibble) : regRead z.toNat s = .done (s.reg z) s := by
  rw [regRead_done s z.isLt, BitVec.ofNat_toNat, BitVec.setWidth_eq]

theorem regWrite_field (s : State) (z : Nibble) (b : Byte) : regWrite z.toNat b s = .done () (s.setReg z b) := by
  rw [regWrite_done b s z.isLt, BitVec.ofNat_toNat, BitVec.setWidth_eq]

/-- Settles O8: a field is a legal index, a larger one is raised at once, and by `exec_run` an instruction raises listed codes
only. -/
theorem registerIndexIsChecked : Obligations.RegisterIndexIsChecked := by
  refine ⟨fun s z b => ⟨regRead_field s z, regWrite_field s z b⟩, fun s k b hk => ?_, fun i s t hs h hf => ?_⟩
  · rw [regRead_raised s hk, regWrite_raised b s hk]
    exact ⟨faultsWith_enterFault .regIndexOutOfRange k (.refl _ _ s),
      faultsWith_enterFault .regIndexOutOfRange k (.refl _ _ s)⟩
  · by_cases hi : i = .halt
    · subst hi; cases h; cases hf
    · rcases exec_run hi hs h with hr | ⟨_, hc⟩
      · rw [hr] at hf; cases hf
      · exact fun e => regIndex_not_mem_mayRaise i (e ▸ hc)

end Sys2Proof.Machine
end

section
/-! PROOFS. The debug port (10_state.md R24, R43): what DebugRead gives after DebugWrite. -/

namespace Sys2Proof.Machine

/-! ## The elements whose write is no plain update -/

theorem debugWrite_sp_accepted {d : BitVec 5} (h : d.toNat < 17) (s : State) :
    debugWrite .sp d s = { s with sp := ⟨d.toNat, h⟩ } := dif_pos h

theorem debugWrite_sp_refused {d : BitVec 5} (h : ¬ d.toNat < 17) (s : State) : debugWrite .sp d s = s := dif_neg h

theorem debugWrite_run_accepted {c : BitVec 2} {r : RunState} (h : RunState.ofCode c = some r) (s : State) :
    debugWrite .run c s = s.setRun r := by
  simp only [debugWrite, h]

theorem debugWrite_run_refused {c : BitVec 2} (h : RunState.ofCode c = none) (s : State) : debugWrite .run c s = s := by
  simp only [debugWrite, h]

theorem debugWrite_fb (x : BitVec 6) (y : BitVec 5) (bit : BitVec 1) (s : State) :
    debugWrite (.fb x y) bit s = s.setPixel x.toNat y.toNat (bit == 1) := rfl

/-- The port refuses the reserved value of RUN alone (10_state.md R38). -/
theorem RunState.ofCode_eq_none_iff (c : BitVec 2) : RunState.ofCode c = none ↔ 2 < c.toNat := by
  revert c; decide

theorem ofBool_beq_one (b : BitVec 1) : BitVec.ofBool (b == 1) = b := by
  revert b; decide

/-! ## The element written -/

/-- DebugRead gives an accepted value back. -/
theorem debugRead_debugWrite_same {e : Element} {value : BitVec e.width} (h : e.accepts value) (s : State) :
    debugRead e (debugWrite e value s) = value := by
  cases e
  case v k => exact s.setReg_reg_same k value
  case stk k => exact Vector.getElem_set_self _
  case sp =>
    rw [debugWrite_sp_accepted (Nat.lt_succ_of_le h)]
    exact (BitVec.ofNat_toNat 5 value).trans value.setWidth_eq
  case mem a => exact s.setByte_byteAt_same a.toNat value
  case fb x y =>
    have hp := s.setPixel_pixel x.isLt y.isLt (value == 1) x.toNat y.toNat
    rw [if_pos ⟨rfl, rfl⟩] at hp
    exact (congrArg BitVec.ofBool hp).trans (ofBool_beq_one value)
  case buz => exact ofBool_beq_one value
  case run =>
    cases hc : RunState.ofCode value with
    | none => exact absurd ((RunState.ofCode_eq_none_iff value).1 hc) (Nat.not_lt.2 h)
    | some r => rw [debugWrite_run_accepted hc]; exact RunState.code_of_ofCode hc
  all_goals rfl

/-- A refused value, of SP above 16 or of RUN above 2, changes nothing. -/
theorem debugWrite_refused {e : Element} {value : BitVec e.width} (h : ¬ e.accepts value) (s : State) :
    debugWrite e value s = s := by
  cases e
  case sp => exact debugWrite_sp_refused (fun hd => h (Nat.le_of_lt_succ hd)) s
  case run => exact debugWrite_run_refused ((RunState.ofCode_eq_none_iff value).2 (Nat.lt_of_not_le h)) s
  all_goals exact absurd trivial h

/-! ## The other elements -/

theorem toNat_ne_of_ne {n : Nat} {x y : BitVec n} (h : x ≠ y) : x.toNat ≠ y.toNat :=
  fun e => h (BitVec.eq_of_toNat_eq e)

/-- DebugRead of every element but a pixel reads nothing of the framebuffer. -/
theorem debugRead_of_displayOnly {s t : State} (h : s.DisplayOnly t) {e : Element} (he : ∀ x y, e ≠ .fb x y) :
    debugRead e t = debugRead e s := by
  obtain ⟨fb, rfl⟩ := h
  cases e
  case fb x y => exact absurd rfl (he x y)
  all_goals rfl

/-- DebugRead of another element gives what it gave before. -/
theorem debugRead_debugWrite_ne {e e' : Element} (hne : e' ≠ e) (value : BitVec e.width) (s : State) :
    debugRead e' (debugWrite e value s) = debugRead e' s := by
  cases e with
  | v k =>
    cases e' with
    | v k' => exact s.setReg_reg_ne value fun h => hne (h ▸ rfl)
    | _ => rfl
  | stk k =>
    cases e' with
    | stk k' => exact Vector.getElem_set_ne k.isLt k'.isLt (toNat_ne_of_ne fun h => hne (h ▸ rfl))
    | _ => rfl
  | mem a =>
    cases e' with
    | mem a' => exact s.setByte_byteAt_ne value (toNat_ne_of_ne fun h => hne (h ▸ rfl))
    | _ => rfl
  | fb x y =>
    by_cases hfb : ∃ x' y', e' = .fb x' y'
    · obtain ⟨x', y', rfl⟩ := hfb
      have hp := s.setPixel_pixel x.isLt y.isLt (value == 1) x'.toNat y'.toNat
      rw [if_neg fun h => hne (by rw [BitVec.eq_of_toNat_eq h.1, BitVec.eq_of_toNat_eq h.2])] at hp
      exact congrArg BitVec.ofBool hp
    · exact debugRead_of_displayOnly (s.displayOnly_setPixel _ _ _) fun x' y' h => hfb ⟨x', y', h⟩
  | sp =>
    by_cases hd : value.toNat < 17
    · rw [debugWrite_sp_accepted hd]
      cases e' with
      | sp => exact absurd rfl hne
      | _ => rfl
    · rw [debugWrite_sp_refused hd]
  | run =>
    cases hc : RunState.ofCode value with
    | none => rw [debugWrite_run_refused hc]
    | some r =>
      rw [debugWrite_run_accepted hc]
      cases e' with
      | run => exact absurd rfl hne
      | _ => rfl
  | _ =>
    cases e'
    any_goals rfl
    exact absurd rfl hne

/-- Settles O50, by the three lemmas above. -/
theorem debugWriteSetsOneElement : Obligations.DebugWriteSetsOneElement := fun _ value s =>
  ⟨fun h => debugRead_debugWrite_same h s, fun h => debugWrite_refused h s, fun _ hne => debugRead_debugWrite_ne hne value s⟩

end Sys2Proof.Machine
end

section
/-! PROOFS. The invariants of a run (10_state.md R26, R28, R38; 40_cycle.md R96; log entry 4): they hold at reset, and every
step, every move of the host and every run keeps those that it should. -/

namespace Sys2Proof.Machine

/-! ## Reset -/

/-- The invariants read no input. -/
theorem State.Sound.of_inputs {s : State} (h : s.Sound) (keys : BitVec 16) (n : Nat) :
    ({ s with keys := keys, rndCount := n } : State).Sound where
  memory := h.memory
  record := h.record
  index := h.index
  counter := h.counter
  buzzer := h.buzzer

theorem resetWith_sound (font : Config.Font) : (State.resetWith font).Sound where
  memory := ⟨.nil, fun c hc => absurd hc List.not_mem_nil⟩
  record := by simp [State.FaultRecordSound, State.resetWith]
  index := by simp [State.IndexBounded, State.resetWith]
  counter := by simp [State.CounterBounded, State.resetWith]
  buzzer := by simp [State.BuzzerLevel, State.resetWith]

/-- Settles O54, by `resetWith_sound`. -/
theorem soundAtReset : Obligations.SoundAtReset := ⟨resetWith_sound, resetWith_sound _⟩

/-- Settles O48: the fields are those of `State.resetWith`, and memory with nothing listed reads as the reset contents. -/
theorem resetBuildsInitialState : Obligations.ResetBuildsInitialState := by
  intro s
  have hbyte : ∀ a, (resetOp s).byteAt a = Memory.unlisted s.font a := State.resetWith_byteAt s.font
  refine ⟨resetOp s, rfl, fun z => ?_, rfl, rfl, rfl, fun k hk => ?_, fun a ha => ?_, fun a ha => ?_, fun p q => ?_,
    rfl, rfl, rfl, rfl, rfl, rfl⟩
  · exact Vector.getElem_replicate z.isLt
  · exact Vector.getElem?_replicate_of_lt hk
  · rw [hbyte, Memory.unlisted, dif_pos ha]
  · rw [hbyte, Memory.unlisted, dif_neg (Nat.not_lt.2 ha)]
  · exact s.clearDisplay_pixel p q

/-! ## Memory in canonical form -/

theorem setByte_memoryCanonical {s : State} (h : s.MemoryCanonical) {a : Nat} (ha : a ≤ 0xFFF) (b : Byte) :
    (s.setByte a b).MemoryCanonical := Memory.write_wf h ha

theorem memoryCanonical_of_displayOnly {s t : State} (h : s.MemoryCanonical) (ht : s.DisplayOnly t) :
    t.MemoryCanonical := by
  obtain ⟨fb, rfl⟩ := ht
  exact h

theorem memoryCanonical_keptByWrites (i : Instr) : KeptByWrites i State.MemoryCanonical where
  fault _ _ _ _ h := h
  halt _ _ h := h
  reg _ _ _ _ h := h
  counter _ _ _ h := h
  stack _ _ _ _ h := h
  index _ _ _ h := h
  memory _ _ _ b ha h := setByte_memoryCanonical h ha b
  pixel _ s x y h := memoryCanonical_of_displayOnly h (s.displayOnly_flipPixel x y)
  clear _ _ h := h
  delay _ _ _ h := h
  sound _ _ _ h := h
  sample _ _ h := h

/-! ## The fault record -/

/-- Every cause has a code from 1 to 10 (60_exceptions.md R220). -/
theorem Cause.code_bounds (e : Cause) : 1 ≤ e.code.toNat ∧ e.code.toNat ≤ 10 := by cases e <;> decide

theorem enterFault_faultRecordSound (s : State) (e : Cause) (info : Nat) : (s.enterFault e info).FaultRecordSound := by
  rw [State.FaultRecordSound, if_pos (s.enterFault_run e info)]; exact e.code_bounds

/-- Where RUN is not Faulted the record is zero, and Halted keeps it so. -/
theorem setRun_halted_faultRecordSound {s : State} (h : s.FaultRecordSound) (hs : s.run ≠ .faulted) :
    (s.setRun .halted).FaultRecordSound := by
  rw [State.FaultRecordSound, if_neg hs] at h
  rwa [State.FaultRecordSound, if_neg (by rw [State.setRun_run]; decide)]

theorem faultRecordSound_of_same {s t : State} (h : s.FaultRecordSound) (hr : Part.runState.same s t) :
    t.FaultRecordSound := by
  obtain ⟨hrun, hcause, hinfo⟩ := hr
  rwa [State.FaultRecordSound, hrun, hcause, hinfo]

theorem faultRecordSound_keptByWrites {i : Instr} (hi : i ≠ .halt) : KeptByWrites i State.FaultRecordSound where
  fault _ s e info _ := enterFault_faultRecordSound s e info
  halt h := absurd h hi
  reg _ _ _ _ h := h
  counter _ _ _ h := h
  stack _ _ _ _ h := h
  index _ _ _ h := h
  memory _ _ _ _ _ h := h
  pixel _ s x y h := faultRecordSound_of_same h ((s.displayOnly_flipPixel x y).frame.2 .runState (by decide))
  clear _ _ h := h
  delay _ _ _ h := h
  sound _ _ _ h := h
  sample _ _ h := h

/-! ## Index register and counter -/

theorem wideAddr_toNat (nnn : Addr12) : (wideAddr nnn).toNat = nnn.toNat := by
  have := nnn.isLt
  rw [wideAddr, BitVec.toNat_setWidth]; omega

theorem glyphAddr_toNat (b : Byte) : (glyphAddr b).toNat = b.toNat * 5 := by
  have := b.isLt
  rw [glyphAddr, BitVec.toNat_mul, BitVec.toNat_setWidth]; simp; omega

theorem offsetTarget_toNat (nnn : Addr12) (v0 : Byte) : (offsetTarget nnn v0).toNat = nnn.toNat + v0.toNat := by
  have := nnn.isLt
  have := v0.isLt
  rw [offsetTarget, BitVec.toNat_add, wideAddr_toNat, BitVec.toNat_setWidth]; omega

/-- Only ANNN, FX1E and FX29 write I, and none writes more than 0xFFF (10_state.md R26). -/
theorem exec_indexBounded {i : Instr} {s t : State} (hs : s.IndexBounded) (h : exec i s = .next t) : t.IndexBounded := by
  unfold State.IndexBounded at *
  cases i
  case ldI nnn =>
    cases h
    have := nnn.isLt
    rw [State.setI_i, wideAddr_toNat]; omega
  case ldFX x =>
    cases h
    have := (s.reg x).isLt
    rw [State.setI_i, glyphAddr_toNat]; omega
  case addIX x =>
    change execAddIX x s = _ at h
    unfold execAddIX at h; dsimp only at h; split at h
    · cases h; exact hs
    · next hsum =>
      cases h
      change ¬ 0xFFF < s.i.toNat + (s.reg x).toNat at hsum
      rw [State.setI_i, BitVec.toNat_ofNat]; omega
  all_goals rwa [show t.i = s.i from exec_same h (p := .index) (by simp [mayChange])]

/-- PC as a cycle hands it to an instruction, from 2 to 0x1000, with the slots in their bounds. -/
structure State.Advanced (s : State) : Prop where
  low : 2 ≤ s.pc.toNat
  high : s.pc.toNat ≤ 0x1000
  slots : ∀ k : Nat, ∀ h : k < 16, s.stk[k].toNat ≤ 0x1000

section
variable {s : State} (hs : s.Advanced)
include hs

theorem State.Advanced.counterBounded : s.CounterBounded := ⟨hs.high.trans (by decide), hs.slots⟩

theorem State.Advanced.setPc {w : Word} (hw : w.toNat ≤ 0x10FE) : (s.setPc w).CounterBounded := ⟨hw, hs.slots⟩

theorem State.Advanced.skipIf (c : Bool) : (skipIf c s).CounterBounded := by
  unfold Machine.skipIf; split
  · refine hs.setPc ?_
    have := hs.high
    rw [BitVec.toNat_add]; simp; omega
  · exact hs.counterBounded

theorem keySkip_counterBounded (k : Nat) (f : Bool → Bool) :
    ((keyRead k s).bind fun p u => .done () (Machine.skipIf (f p) u)).Ends State.CounterBounded := by
  unfold keyRead; split
  · exact hs.skipIf _
  · exact hs.counterBounded

theorem call_counterBounded (nnn : Addr12) (info : Nat) :
    ((push s.pc info s).bind fun _ u => .done () (u.setPc (wideAddr nnn))).Ends State.CounterBounded := by
  unfold push; split
  · next hsp =>
    refine ⟨?_, fun k hk => ?_⟩
    · have := nnn.isLt
      rw [State.setPc_pc, wideAddr_toNat]; omega
    · change ((s.stk.set s.sp.val s.pc hsp)[k]).toNat ≤ 0x1000
      rw [Vector.getElem_set]; split
      · exact hs.high
      · exact hs.slots k hk
  · exact hs.counterBounded

theorem ret_counterBounded : ((pop s).bind fun w u => .done () (u.setPc w)).Ends State.CounterBounded := by
  unfold pop; split
  · exact ⟨(hs.slots _ _).trans (by decide), hs.slots⟩
  · exact hs.counterBounded

end

/-- A skip, a jump, a call and a return stay in the bounds of 10_state.md R28. -/
theorem exec_counterBounded {i : Instr} {s t : State} (hs : s.Advanced) (h : exec i s = .next t) : t.CounterBounded := by
  cases i
  case jp nnn =>
    cases h
    have := nnn.isLt
    exact hs.setPc (by rw [wideAddr_toNat]; omega)
  case jpV0 nnn =>
    cases h
    have := nnn.isLt
    have := (s.reg 0).isLt
    exact hs.setPc (by rw [offsetTarget_toNat]; omega)
  case ret => exact Exec.outcome_eq_next h (ret_counterBounded hs)
  case call nnn => exact Exec.outcome_eq_next h (call_counterBounded hs nnn _)
  case seXNN x nn => cases h; exact hs.skipIf _
  case sneXNN x nn => cases h; exact hs.skipIf _
  case seXY x y n => cases h; exact hs.skipIf _
  case sneXY x y n => cases h; exact hs.skipIf _
  case skp x => exact Exec.outcome_eq_next h (keySkip_counterBounded hs _ id)
  case sknp x => exact Exec.outcome_eq_next h (keySkip_counterBounded hs _ not)
  case ldXK x =>
    change execLdXK x s = _ at h
    unfold execLdXK at h; split at h
    · cases h; exact hs.counterBounded
    · cases h
      refine hs.setPc ?_
      have := hs.low
      have := hs.high
      rw [BitVec.toNat_sub]; simp; omega
  all_goals
    have hpc : t.pc = s.pc := exec_same h (p := .counter) (by simp [mayChange])
    have hstk : t.stk = s.stk := (exec_same h (p := .stack) (by simp [mayChange])).1
    rw [State.CounterBounded, hpc, hstk]
    exact hs.counterBounded

/-! ## The ways a cycle can go -/

theorem step_of_stopped {s : State} (h : s.run ≠ .running) : step s = .next s := by
  unfold step cycleWith; split
  · rfl
  · rfl
  · exact absurd ‹_› h

theorem beforeExec_of_ne_halt {i : Instr} (hi : i ≠ .halt) (s : State) : beforeExec i s = advancePc s := by
  cases i
  case halt => exact absurd rfl hi
  all_goals rfl

/-- The next state of a cycle (40_cycle.md R90 to R98): the block is stopped, or the fetch faults, or the word is unknown, the
sentinel, or an instruction, which executes with PC advanced and may be followed by a tick. -/
inductive StepTo (s : State) : State → Prop
  | stopped (h : s.run ≠ .running) : StepTo s s
  | fetchFault (h : s.run = .running) (hpc : 0xFFF < s.pc.toNat + 1) :
      StepTo s (s.enterFault .memOutOfRange (max s.pc.toNat 0x1000))
  | unknown (h : s.CanFetch) (e : DecodeError) (hw : decodeWord s.wordAtPc = .error e) :
      StepTo s ((advancePc s).enterFault .unknownOpcode s.wordAtPc.toNat)
  | halt (h : s.CanFetch) (hw : decodeWord s.wordAtPc = .ok .halt) : StepTo s (s.setRun .halted)
  | instr (h : s.CanFetch) (i : Instr) (hw : decodeWord s.wordAtPc = .ok i) (hi : i ≠ .halt) (u : State)
      (hu : exec i (advancePc s) = .next u) : StepTo s (finishCycle u)

/-- The first byte of the word at PC that does not exist is at PC, or at 0x1000 where PC is 0xFFF. -/
theorem fetch_raised {s : State} (h : 0xFFF < s.pc.toNat + 1) :
    fetch s = .raised (s.enterFault .memOutOfRange (max s.pc.toNat 0x1000)) := by
  by_cases hhigh : 0xFFF < s.pc.toNat
  · rw [fetch_raised_high s hhigh, max_eq_left hhigh]
  · have hlow : s.pc.toNat = 0xFFF := by omega
    rw [fetch_raised_low s hlow, hlow]; rfl

theorem runWord_to {s : State} (h : s.CanFetch) : NextWith (runWord exec s.wordAtPc s) (StepTo s) := by
  cases hw : decodeWord s.wordAtPc with
  | error e =>
    rw [runWord, hw]
    exact ⟨_, rfl, .unknown h e hw⟩
  | ok i =>
    by_cases hi : i = .halt
    · subst hi
      rw [runWord, hw]
      exact ⟨_, rfl, .halt h hw⟩
    · obtain ⟨u, hu⟩ := exec_answers i (advancePc s)
      simp only [runWord, hw, beforeExec_of_ne_halt hi, hu]
      exact ⟨_, rfl, .instr h i hw hi u hu⟩

/-- Every cycle answers a next state, and it is one of those. -/
theorem step_to (s : State) : NextWith (step s) (StepTo s) := by
  by_cases hrun : s.run = .running
  · by_cases hpc : s.pc.toNat + 1 ≤ 0xFFF
    · rw [step_of_canFetch ⟨hrun, hpc⟩]
      exact runWord_to ⟨hrun, hpc⟩
    · simp only [step_of_running hrun, fetch_raised (Nat.lt_of_not_le hpc)]
      exact ⟨_, rfl, .fetchFault hrun (Nat.lt_of_not_le hpc)⟩
  · exact ⟨s, step_of_stopped hrun, .stopped hrun⟩

theorem stepTo_of_step {s t : State} (h : step s = .next t) : StepTo s t := by
  obtain ⟨u, hu, hst⟩ := step_to s
  rw [hu] at h
  cases h
  exact hst

/-! ## One step -/

theorem State.Sound.enterFault {s : State} (h : s.Sound) (e : Cause) (info : Nat) : (s.enterFault e info).Sound where
  memory := h.memory
  record := enterFault_faultRecordSound s e info
  index := h.index
  counter := h.counter
  buzzer := h.buzzer

theorem sound_keptByFault : KeptByFault State.Sound := fun _ e info h => h.enterFault e info

theorem tick_buzzerLevel (s : State) : (tick s).BuzzerLevel := by
  simp [State.BuzzerLevel, tick]

/-- BUZ and ST are the same after an instruction that leaves the block stopped: only FX18 writes ST, and it cannot stop it. -/
theorem exec_buzzerLevel {i : Instr} {s t : State} (hs : s.BuzzerLevel) (hrun : s.run = .running)
    (h : exec i s = .next t) (ht : t.run ≠ .running) : t.BuzzerLevel := by
  have hbuz : t.buz = s.buz := exec_same h (p := .buzzer) (by cases i <;> simp [mayChange])
  have hst : t.st = s.st := by
    cases i
    case ldSTX x => cases h; exact absurd hrun ht
    all_goals exact exec_same h (p := .sound) (by simp [mayChange])
  rwa [State.BuzzerLevel, hbuz, hst]

/-- The end of the cycle keeps the invariants, and a tick makes BUZ the level of ST. -/
theorem finishCycle_sound {t : State} (hm : t.MemoryCanonical) (hr : t.FaultRecordSound) (hi : t.IndexBounded)
    (hc : t.CounterBounded) (hb : t.run ≠ .running → t.BuzzerLevel) : (finishCycle t).Sound := by
  by_cases ht : t.run = .running
  · rw [finishCycle_of_running ht]
    exact ⟨hm, hr, hi, hc, tick_buzzerLevel t⟩
  · rw [finishCycle_of_stopped ht]
    exact ⟨hm, hr, hi, hc, hb ht⟩

section
variable {s : State} (hs : s.Sound) (hf : s.CanFetch)
include hs hf

theorem advancePc_advanced : (advancePc s).Advanced := by
  have := hf.2
  have hpc : (advancePc s).pc.toNat = s.pc.toNat + 2 := by
    rw [advancePc, State.setPc_pc, BitVec.toNat_add]; simp; omega
  exact ⟨by omega, by omega, hs.counter.2⟩

theorem advancePc_sound : (advancePc s).Sound where
  memory := hs.memory
  record := hs.record
  index := hs.index
  counter := (advancePc_advanced hs hf).counterBounded
  buzzer := hs.buzzer

/-- The sentinel changes RUN alone. -/
theorem halt_sound : (s.setRun .halted).Sound where
  memory := hs.memory
  record := setRun_halted_faultRecordSound hs.record (by rw [hf.1]; decide)
  index := hs.index
  counter := hs.counter
  buzzer := hs.buzzer

/-- An instruction executed with PC advanced, and then the end of the cycle. -/
theorem finishCycle_exec_sound {i : Instr} (hi : i ≠ .halt) {t : State} (h : exec i (advancePc s) = .next t) :
    (finishCycle t).Sound := by
  have ha := advancePc_sound hs hf
  exact finishCycle_sound (exec_keeps_next (memoryCanonical_keptByWrites i) ha.memory h)
    (exec_keeps_next (faultRecordSound_keptByWrites hi) ha.record h) (exec_indexBounded ha.index h)
    (exec_counterBounded (advancePc_advanced hs hf) h) (exec_buzzerLevel ha.buzzer hf.1 h)

end

/-- Settles O55, by the ways a cycle can go. -/
theorem soundKeptByEveryStep : Obligations.SoundKeptByEveryStep := by
  intro s t hs h
  cases stepTo_of_step h with
  | stopped _ => exact hs
  | fetchFault _ _ => exact hs.enterFault _ _
  | unknown hf _ _ => exact (advancePc_sound hs hf).enterFault _ _
  | halt hf _ => exact halt_sound hs hf
  | instr hf i _ hi u hu => exact finishCycle_exec_sound hs hf hi hu

/-! ## The moves of the host -/

/-- A ROM load answers a next state, and a property that its stores and fault entry keep holds in it. -/
theorem loadRom_keeps {P : State → Prop} (hf : KeptByFault P) (hw : ∀ s a b, a ≤ 0xFFF → P s → P (s.setByte a b))
    (rom : List Byte) {s : State} (hs : P s) : NextWith (loadRom rom s) P := by
  unfold loadRom; split
  · exact ⟨s, rfl, hs⟩
  · exact ⟨s, rfl, hs⟩
  · exact (storeBytes_ends hf hw rom _ s hs).outcome

/-- ExecuteWord answers a next state, and a property that every instruction's writes keep holds in it. -/
theorem executeWord_keeps {P : State → Prop} (hk : ∀ i, KeptByWrites i P) (w : Word) {s : State} (hs : P s) :
    NextWith (executeWord w s) P := by
  have hf : KeptByFault P := (hk .halt).fault (.head _)
  unfold executeWord executeWordWith; split
  · exact ⟨s, rfl, hs⟩
  · exact ⟨s, rfl, hs⟩
  · split
    · exact ⟨_, rfl, hf s _ _ hs⟩
    · exact exec_keeps (hk _) hs
    · exact ⟨_, rfl, hf s _ _ hs⟩

/-- Settles O53: each operation of the interface answers a next state. -/
theorem everyHostMoveAnswers : Obligations.EveryHostMoveAnswers := by
  intro m s
  cases m with
  | reset => exact ⟨_, rfl, trivial⟩
  | loadRom rom => exact loadRom_keeps (fun _ _ _ _ => trivial) (fun _ _ _ _ _ => trivial) rom trivial
  | cycle => exact (step_to s).imp fun _ h => ⟨h.1, trivial⟩
  | executeWord w => exact executeWord_keeps true_keptByWrites w trivial
  | debugWrite e value => exact ⟨_, rfl, trivial⟩
  | setKeys keys => exact ⟨_, rfl, trivial⟩

theorem finishCycle_memoryCanonical {s : State} (h : s.MemoryCanonical) : (finishCycle s).MemoryCanonical := by
  unfold finishCycle; split <;> exact h

theorem step_memoryCanonical {s t : State} (hs : s.MemoryCanonical) (h : StepTo s t) : t.MemoryCanonical := by
  cases h with
  | stopped _ => exact hs
  | fetchFault _ _ => exact hs
  | unknown _ _ _ => exact hs
  | halt _ _ => exact hs
  | instr _ i _ _ u hu =>
    have ha : (advancePc s).MemoryCanonical := hs
    exact finishCycle_memoryCanonical (exec_keeps_next (memoryCanonical_keptByWrites i) ha hu)

/-- Of the debug port's writes only that of a byte writes memory. -/
theorem debugWrite_memoryCanonical {s : State} (hs : s.MemoryCanonical) (e : Element) (value : BitVec e.width) :
    (debugWrite e value s).MemoryCanonical := by
  cases e
  case mem a => exact setByte_memoryCanonical hs (Nat.le_of_lt_succ a.isLt) value
  case fb x y =>
    have hd := s.displayOnly_setPixel x.toNat y.toNat (value == 1)
    exact memoryCanonical_of_displayOnly hs hd
  case sp =>
    by_cases hd : value.toNat < 17
    · rw [debugWrite_sp_accepted hd]; exact hs
    · rwa [debugWrite_sp_refused hd]
  case run =>
    cases hc : RunState.ofCode value with
    | none => rwa [debugWrite_run_refused hc]
    | some r => rw [debugWrite_run_accepted hc]; exact hs
  all_goals exact hs

theorem hostMove_memoryCanonical (m : HostMove) {s : State} (hs : s.MemoryCanonical) :
    NextWith (hostMove m s) State.MemoryCanonical := by
  cases m with
  | reset => exact ⟨_, rfl, (resetWith_sound s.font).memory⟩
  | loadRom rom => exact loadRom_keeps (fun _ _ _ h => h) (fun _ _ b ha h => setByte_memoryCanonical h ha b) rom hs
  | cycle => exact (step_to s).imp fun _ h => ⟨h.1, step_memoryCanonical hs h.2⟩
  | executeWord w => exact executeWord_keeps memoryCanonical_keptByWrites w hs
  | debugWrite e value => exact ⟨_, rfl, debugWrite_memoryCanonical hs e value⟩
  | setKeys keys => exact ⟨_, rfl, hs⟩

/-- Settles O57, by `hostMove_memoryCanonical`. -/
theorem memoryCanonicalKeptByEveryMove : Obligations.MemoryCanonicalKeptByEveryMove := by
  intro m s t hs h
  obtain ⟨u, hu, hc⟩ := hostMove_memoryCanonical m hs
  rw [hu] at h
  cases h
  exact hc

/-! ## Runs -/

/-- The moves of a run: Reset, LoadRom, Cycle and a change of KEYS. -/
def HostMove.IsRunMove (m : HostMove) : Prop :=
  m = .reset ∨ m = .cycle ∨ (∃ rom, m = .loadRom rom) ∨ ∃ keys, m = .setKeys keys

theorem setByte_sound {s : State} (hs : s.Sound) {a : Nat} (ha : a ≤ 0xFFF) (b : Byte) : (s.setByte a b).Sound where
  memory := setByte_memoryCanonical hs.memory ha b
  record := hs.record
  index := hs.index
  counter := hs.counter
  buzzer := hs.buzzer

theorem hostMove_sound {m : HostMove} (hm : m.IsRunMove) {s : State} (hs : s.Sound) :
    NextWith (hostMove m s) State.Sound := by
  rcases hm with rfl | rfl | ⟨rom, rfl⟩ | ⟨keys, rfl⟩
  · exact ⟨_, rfl, (resetWith_sound s.font).of_inputs s.keys s.rndCount⟩
  · exact (step_to s).imp fun t h => ⟨h.1, soundKeptByEveryStep s t hs h.1⟩
  · exact loadRom_keeps sound_keptByFault (fun _ _ b ha h => setByte_sound h ha b) rom hs
  · exact ⟨_, rfl, hs.of_inputs keys s.rndCount⟩

/-- Settles O56, by induction on the moves. -/
theorem soundKeptByEveryRun : Obligations.SoundKeptByEveryRun := by
  intro ms
  induction ms with
  | nil => intro s t hs _ h; cases h; exact hs
  | cons m ms ih =>
    intro s t hs hms h
    obtain ⟨u, hu, hsu⟩ := hostMove_sound (hms m List.mem_cons_self) hs
    rw [hostMoves, hu] at h
    exact ih u t hsu (fun m' hm' => hms m' (List.mem_cons_of_mem _ hm')) h

end Sys2Proof.Machine
end

section
/-! PROOFS. Instruction words in memory (20_memory.md R52, R53, R61): what the fetch reads, the word that FX55 stores at PC,
and the model's own placement of a word. -/

namespace Sys2Proof.Machine

/-! ## The fetch -/

theorem wordAtPc_toNat (s : State) :
    s.wordAtPc.toNat = (s.byteAt s.pc.toNat).toNat * 256 + (s.byteAt (s.pc.toNat + 1)).toNat := by
  rw [State.wordAtPc, wordOfBytes, BitVec.toNat_append, ← Nat.shiftLeft_add_eq_or_of_lt (BitVec.isLt _),
    Nat.shiftLeft_eq]

/-- A fetch that raises ends the cycle of a Running block in the state it left. -/
theorem step_of_fetch_raised {s t : State} (hrun : s.run = .running) (h : fetch s = .raised t) : step s = .next t := by
  simp only [step_of_running hrun, h]

/-- Settles O36, by the three places PC can be: where the word fits, above memory, and at its last byte. -/
theorem fetchReadsWordOrFaults : Obligations.FetchReadsWordOrFaults := by
  refine ⟨fun s h => ⟨s.wordAtPc, fetch_done s h, wordAtPc_toNat s⟩, fun s hrun => ⟨fun h => ?_, fun h => ?_⟩⟩
  · rw [step_of_fetch_raised hrun (fetch_raised_high s h), ← BitVec.ofNat_toNat]
    exact faultsWith_enterFault .memOutOfRange s.pc.toNat (.refl [] [] s)
  · rw [step_of_fetch_raised hrun (fetch_raised_low s h)]
    exact faultsWith_enterFault .memOutOfRange 0x1000 (.refl [] [] s)

/-! ## FX55 over the word at PC -/

/-- FX55 with its last address in memory stores V[0] to V[X] from I on and changes nothing else (43_index_memory.md R166). -/
theorem exec_stRegs_stores {x : Nibble} {s : State} (h : dataAddr s x.toNat ≤ 0xFFF) :
    NextWith (exec (.stRegs x) s) fun t => s.MemOnly t ∧ StoredRange s t 0 (x.toNat + 1) := by
  change NextWith (execStRegs x s) _
  have hx := x.isLt
  obtain ⟨t, ht, hst⟩ := storeRegs_done (x.toNat + 1) 0 s (by omega) fun j _ hj => by
    rw [dataAddr_eq] at h ⊢; omega
  rw [execStRegs, if_neg (Nat.not_lt.2 h), ht]
  exact ⟨t, rfl, hst⟩

/-- The register after one that is below another has the next number. -/
theorem toNat_add_one_of_lt {j x : Nibble} (h : j < x) : (j + 1).toNat = j.toNat + 1 := by
  bv_omega

/-- Settles O43: the bytes at PC and PC + 1 are the two stored from V[j] and V[j + 1]. -/
theorem storedCodeIsFetched : Obligations.StoredCodeIsFetched := by
  rintro s t x j k ha hjx rfl hpc h
  obtain ⟨u, hu, _, hst⟩ := exec_stRegs_stores ha
  obtain rfl : u = t := Host.Outcome.next.inj (hu.symm.trans h)
  have hpcu : u.pc = s.pc := exec_same h (p := .counter) (by simp [mayChange])
  have hlt : j.toNat < x.toNat := hjx
  have hk := toNat_add_one_of_lt hjx
  have stored (z : Nibble) (hz : z.toNat ≤ x.toNat) : u.byteAt (dataAddr s z.toNat) = s.reg z := by
    rw [hst.stored z.toNat (Nat.zero_le _) (by omega), BitVec.ofNat_toNat, BitVec.setWidth_eq]
  have hhigh : u.byteAt u.pc.toNat = s.reg j := by rw [hpcu, hpc, stored j hlt.le]
  have hlow : u.byteAt (u.pc.toNat + 1) = s.reg (j + 1) := by
    rw [← stored (j + 1) (by omega), hk, hpcu, hpc]; rfl
  exact ⟨hpcu, by rw [State.wordAtPc, hhigh, hlow]; rfl⟩

/-! ## The placement of a word (log entry 9) -/

theorem placeAddr_of_fits {s : State} (h : s.pc.toNat + 1 ≤ 0xFFF) : placeAddr s = s.pc.toNat := if_pos h

/-- Both bytes of a word fit where it is placed. -/
theorem placeAddr_fits (s : State) : placeAddr s + 1 ≤ 0xFFF := by
  unfold placeAddr; split
  · assumption
  · decide

theorem placeWord_pc (s : State) (w : Word) : (placeWord s w).pc = BitVec.ofNat 16 (placeAddr s) := rfl

@[simp] theorem placeWord_pc_toNat (s : State) (w : Word) : (placeWord s w).pc.toNat = placeAddr s := by
  have := placeAddr_fits s
  rw [placeWord_pc, BitVec.toNat_ofNat, Nat.mod_eq_of_lt (by omega)]

theorem placeWord_byteAt_high (s : State) (w : Word) : (placeWord s w).byteAt (placeAddr s) = highByte w := by
  rw [placeWord, State.setByte_byteAt_ne _ _ (Nat.ne_of_lt (Nat.lt_succ_self _)), State.setByte_byteAt_same]

theorem placeWord_byteAt_low (s : State) (w : Word) : (placeWord s w).byteAt (placeAddr s + 1) = lowByte w :=
  State.setByte_byteAt_same ..

theorem placeWord_byteAt_ne {s : State} (w : Word) {a : Nat} (h : a ≠ placeAddr s) (h' : a ≠ placeAddr s + 1) :
    (placeWord s w).byteAt a = s.byteAt a := by
  rw [placeWord, State.setByte_byteAt_ne _ _ h', State.setByte_byteAt_ne _ _ h, State.setRun_byteAt, State.setPc_byteAt]

theorem placeWord_wordAtPc (s : State) (w : Word) : (placeWord s w).wordAtPc = w := by
  rw [State.wordAtPc, placeWord_pc_toNat, placeWord_byteAt_high, placeWord_byteAt_low, wordOfBytes_bytes]

theorem placeWord_canFetch (s : State) (w : Word) : (placeWord s w).CanFetch :=
  ⟨rfl, by rw [placeWord_pc_toNat]; exact placeAddr_fits s⟩

theorem frame_placeWord (s : State) (w : Word) : OnlyChanges [] [.counter, .memory, .runState] s (placeWord s w) := by
  refine .of_eq (fun z _ => rfl) ?_ ?_ ?_ ?_ ?_ ?_ ?_ ?_ ?_ ?_ ?_ <;> simp [placeWord]

/-- Settles O44: the word is placed where PC then stands, which is where it stood if a word fits there. -/
theorem placedWordIsFetchedNext : Obligations.PlacedWordIsFetchedNext := by
  rintro s nbits w _ rfl
  rw [State.withFetchWord]
  refine ⟨placeWord_canFetch s _, placeWord_wordAtPc s _, fun h => ?_, fun a hhigh hlow => ?_, rfl, rfl,
    frame_placeWord s _⟩
  · rw [placeWord_pc, placeAddr_of_fits h, BitVec.ofNat_toNat, BitVec.setWidth_eq]
  · rw [placeWord_pc_toNat] at hhigh hlow
    exact placeWord_byteAt_ne _ hhigh hlow

end Sys2Proof.Machine
end

section
/-! PROOFS. Decoder, encoder and opcode table (30_encoding.md R73 to R84): every row reads its words, the encoder inverts the
dispatcher, and the words left over are the unknown ones. -/

namespace Sys2Proof.Machine

/-! ## What the words of a row decode to (R76) -/

/-- A row of one word. -/
theorem rowReads_full {p : Word} {i : Instr} (h : decodeWord p = .ok i) : RowReads 0xFFFF p fun _ => i := by
  intro w hw
  obtain rfl : w = p := (BitVec.and_allOnes (x := w)).symm.trans hw
  exact h

/-- A row selected by OP alone. -/
theorem rowReads_op {p : Word} {f : Word → Instr} (h : ∀ w, fieldOP w = fieldOP p → decodeWord w = .ok (f w)) :
    RowReads 0xF000 p f := fun w hw => h w (fieldOP_of_mask 0xF000 rfl hw)

/-- A row selected by OP and N. -/
theorem rowReads_op_n {p : Word} {f : Word → Instr}
    (h : ∀ w, fieldOP w = fieldOP p → fieldN w = fieldN p → decodeWord w = .ok (f w)) : RowReads 0xF00F p f :=
  fun w hw => h w (fieldOP_of_mask 0xF00F rfl hw) (fieldN_of_mask 0xF00F rfl hw)

/-- A row selected by OP and NN. -/
theorem rowReads_op_nn {p : Word} {f : Word → Instr}
    (h : ∀ w, fieldOP w = fieldOP p → fieldNN w = fieldNN p → decodeWord w = .ok (f w)) : RowReads 0xF0FF p f :=
  fun w hw => h w (fieldOP_of_mask 0xF0FF rfl hw) (fieldNN_of_mask 0xF0FF rfl hw)

/-- The words that a row of the table selects decode to what the row reads from them. -/
theorem rowReads_of_mem : ∀ r ∈ opcodeTable, RowReads r.mask r.pattern r.operands := by
  simp only [opcodeTable, List.cons_append, List.nil_append, List.forall_mem_cons]
  refine ⟨rowReads_full rfl, rowReads_full rfl, rowReads_op ?_, rowReads_op ?_, rowReads_op ?_, rowReads_op ?_,
    rowReads_op ?_, rowReads_op ?_, rowReads_op ?_, rowReads_op_n ?_, rowReads_op_n ?_, rowReads_op_n ?_, rowReads_op_n ?_,
    rowReads_op_n ?_, rowReads_op_n ?_, rowReads_op_n ?_, rowReads_op_n ?_, rowReads_op_n ?_, rowReads_op ?_,
    rowReads_op ?_, rowReads_op ?_, rowReads_op ?_, rowReads_op ?_, rowReads_op_nn ?_, rowReads_op_nn ?_,
    rowReads_op_nn ?_, rowReads_op_nn ?_, rowReads_op_nn ?_, rowReads_op_nn ?_, rowReads_op_nn ?_, rowReads_op_nn ?_,
    rowReads_op_nn ?_, rowReads_op_nn ?_, rowReads_op_nn ?_, rowReads_full rfl, List.forall_mem_nil _⟩
  all_goals
    intros
    simp only [decodeWord, decodeFamily8, decodeFamilyE, decodeFamilyF, *]
    rfl

/-- The row at a place in the table. -/
theorem rowReads_of_row {form : String} {p m : Word} {f : Word → Instr} (k : Nat)
    (h : opcodeTable[k]? = some ⟨form, p, m, f⟩) : RowReads m p f := rowReads_of_mem _ (List.mem_of_getElem? h)

theorem selects_iff {r : OpcodeRow} {w : Word} : r.selects w = true ↔ w &&& r.mask = r.pattern := beq_iff_eq

theorem decodeWord_of_selects {r : OpcodeRow} (hr : r ∈ opcodeTable) {w : Word} (h : r.selects w = true) :
    decodeWord w = .ok (r.operands w) := rowReads_of_mem r hr w (selects_iff.1 h)

/-! ## Decode of encode -/

/-- Every instruction's word meets a row of the table that reads it back. -/
theorem encoding_statement (i : Instr) : Laws.Encoding.Statement i := by
  cases i with
  | cls => exact Laws.Encoding.cls
  | ret => exact Laws.Encoding.ret
  | jp nnn => exact Laws.Encoding.jp nnn
  | call nnn => exact Laws.Encoding.call nnn
  | seXNN x nn => exact Laws.Encoding.seXNN x nn
  | sneXNN x nn => exact Laws.Encoding.sneXNN x nn
  | seXY x y n => exact Laws.Encoding.seXY x y n
  | ldXNN x nn => exact Laws.Encoding.ldXNN x nn
  | addXNN x nn => exact Laws.Encoding.addXNN x nn
  | ldXY x y => exact Laws.Encoding.ldXY x y
  | orXY x y => exact Laws.Encoding.orXY x y
  | andXY x y => exact Laws.Encoding.andXY x y
  | xorXY x y => exact Laws.Encoding.xorXY x y
  | addXY x y => exact Laws.Encoding.addXY x y
  | sub x y => exact Laws.Encoding.sub x y
  | shr x y => exact Laws.Encoding.shr x y
  | subn x y => exact Laws.Encoding.subn x y
  | shl x y => exact Laws.Encoding.shl x y
  | sneXY x y n => exact Laws.Encoding.sneXY x y n
  | ldI nnn => exact Laws.Encoding.ldI nnn
  | jpV0 nnn => exact Laws.Encoding.jpV0 nnn
  | rnd x nn => exact Laws.Encoding.rnd x nn
  | drw x y n => exact Laws.Encoding.drw x y n
  | skp x => exact Laws.Encoding.skp x
  | sknp x => exact Laws.Encoding.sknp x
  | ldXDT x => exact Laws.Encoding.ldXDT x
  | ldXK x => exact Laws.Encoding.ldXK x
  | ldDTX x => exact Laws.Encoding.ldDTX x
  | ldSTX x => exact Laws.Encoding.ldSTX x
  | addIX x => exact Laws.Encoding.addIX x
  | ldFX x => exact Laws.Encoding.ldFX x
  | ldBX x => exact Laws.Encoding.ldBX x
  | stRegs x => exact Laws.Encoding.stRegs x
  | ldRegs x => exact Laws.Encoding.ldRegs x
  | halt => exact Laws.Encoding.halt

theorem decodeWord_encode (i : Instr) : decodeWord (encode i) = .ok i := by
  obtain ⟨r, hr, hp, ho⟩ := encoding_statement i
  rw [rowReads_of_mem r hr _ hp, ho]

theorem decode_encodeBytes (i : Instr) (rest : List Byte) : decode (encodeBytes i ++ rest) = .ok (i, rest) := by
  simp only [encodeBytes, List.cons_append, List.nil_append, decode, wordOfBytes_bytes, decodeWord_encode]

/-! ## Encode of decode: in each format the fields read are the whole word (R73) -/

section
variable {w : Word} {i : Instr} {op : Nibble}

theorem join_nnn (h : fieldOP w = op) : op ++ fieldNNN w = w := by
  rw [← h, ← word_eq_op_nnn]

theorem join_x_nn (h : fieldOP w = op) : op ++ fieldX w ++ fieldNN w = w := by
  rw [← h, ← word_eq_op_x_nn]

theorem join_x_y_n (h : fieldOP w = op) : op ++ fieldX w ++ fieldY w ++ fieldN w = w := by
  rw [← h, ← word_eq_op_x_y_n]

/-- A case of the dispatcher that selects an operation, and the cases after it. -/
theorem encode_of_case {c : Prop} [Decidable c] {j : Instr} {r : Except DecodeError Instr} (hj : c → encode j = w)
    (hr : r = .ok i → encode i = w) : (if c then .ok j else r) = .ok i → encode i = w := by
  split
  · rintro ⟨⟩; exact hj ‹c›
  · exact hr

theorem encode_of_decodeFamily0 : decodeFamily0 w = .ok i → encode i = w := by
  unfold decodeFamily0
  iterate 3 refine encode_of_case Eq.symm ?_
  exact nofun

theorem encode_of_decodeFamily8 (hop : fieldOP w = 0x8#4) : decodeFamily8 w = .ok i → encode i = w := by
  have hw := join_x_y_n hop
  unfold decodeFamily8
  iterate 9 refine encode_of_case (fun hn => by rwa [hn] at hw) ?_
  exact nofun

theorem encode_of_decodeFamilyE (hop : fieldOP w = 0xE#4) : decodeFamilyE w = .ok i → encode i = w := by
  have hw := join_x_nn hop
  unfold decodeFamilyE
  iterate 2 refine encode_of_case (fun hnn => by rwa [hnn] at hw) ?_
  exact nofun

theorem encode_of_decodeFamilyF (hop : fieldOP w = 0xF#4) : decodeFamilyF w = .ok i → encode i = w := by
  have hw := join_x_nn hop
  unfold decodeFamilyF
  iterate 9 refine encode_of_case (fun hnn => by rwa [hnn] at hw) ?_
  exact nofun

theorem encode_of_decodeWord (h : decodeWord w = .ok i) : encode i = w := by
  unfold decodeWord at h
  split at h -- the case of OP = k is numbered k + 1
  case h_1 => exact encode_of_decodeFamily0 h
  case h_9 hop => exact encode_of_decodeFamily8 hop h
  case h_15 hop => exact encode_of_decodeFamilyE hop h
  case h_16 hop => exact encode_of_decodeFamilyF hop h
  case h_2 | h_3 | h_11 | h_12 => cases h; exact join_nnn ‹_›
  case h_4 | h_5 | h_7 | h_8 | h_13 => cases h; exact join_x_nn ‹_›
  case h_6 | h_10 | h_14 => cases h; exact join_x_y_n ‹_›
  case h_17 => cases h

end

/-- Settles O45: a row of the table reads each instruction back from its word, and the fields read are the whole word. -/
theorem decodeEncodeAgree : Obligations.DecodeEncodeAgree :=
  ⟨decodeWord_encode, decode_encodeBytes, fun _ _ => encode_of_decodeWord⟩

/-! ## Dispatcher and table -/

/-- A decoded word is the word of its instruction, which a row selects. -/
theorem decodeWord_ok_iff (w : Word) (i : Instr) :
    decodeWord w = .ok i ↔ ∃ r ∈ opcodeTable, r.selects w = true ∧ r.operands w = i := by
  constructor
  · intro h
    obtain ⟨r, hr, hp, ho⟩ := encoding_statement i
    rw [encode_of_decodeWord h] at hp ho
    exact ⟨r, hr, selects_iff.2 hp, ho⟩
  · rintro ⟨r, hr, hs, rfl⟩
    exact decodeWord_of_selects hr hs

/-- A word that selects two rows has the match value of each in the bits of both masks. -/
theorem not_selects_both {r r' : OpcodeRow} (h : r.pattern &&& r'.mask ≠ r'.pattern &&& r.mask) (w : Word) :
    ¬ (r.selects w = true ∧ r'.selects w = true) := by
  rintro ⟨hs, hs'⟩
  rw [selects_iff] at hs hs'
  rw [← hs, ← hs', BitVec.and_assoc, BitVec.and_assoc, BitVec.and_comm r.mask] at h
  exact h rfl

theorem opcodeTable_disjoint :
    opcodeTable.Pairwise fun r r' => r.pattern &&& r'.mask ≠ r'.pattern &&& r.mask := by decide

/-- Settles O46: the rows read what the dispatcher decodes, and two rows differ in a bit that both masks keep. -/
theorem dispatcherMeetsTable : Obligations.DispatcherMeetsTable :=
  ⟨decodeWord_ok_iff, opcodeTable_disjoint.imp not_selects_both⟩

/-! ## Unknown words (R78, R80) -/

/-- A case of the dispatcher that selects an operation takes its words from the unknown ones. -/
theorem ite_ok_error_iff {c : Prop} [Decidable c] {i : Instr} {r : Except DecodeError Instr} :
    (∃ e, (if c then .ok i else r) = .error e) ↔ ¬ c ∧ ∃ e, r = .error e := by
  split <;> simp [*]

theorem decodeFamily0_error_iff (w : Word) :
    (∃ e, decodeFamily0 w = .error e) ↔ w ≠ 0x00E0 ∧ w ≠ 0x00EE ∧ w ≠ 0x0000 := by
  simp [decodeFamily0, ite_ok_error_iff]

theorem nibble_listed (n : Nibble) : n ∈ [0x0#4, 0x1#4, 0x2#4, 0x3#4, 0x4#4, 0x5#4, 0x6#4, 0x7#4, 0x8#4, 0x9#4, 0xA#4,
    0xB#4, 0xC#4, 0xD#4, 0xE#4, 0xF#4] := by
  revert n; decide

/-- The values of N that no row of the family 8 has. -/
theorem nibble_unlisted_family8_iff (n : Nibble) : n ∈ [0x8#4, 0x9#4, 0xA#4, 0xB#4, 0xC#4, 0xD#4, 0xF#4] ↔
    n ∉ [0x0#4, 0x1#4, 0x2#4, 0x3#4, 0x4#4, 0x5#4, 0x6#4, 0x7#4, 0xE#4] := by
  revert n; decide

theorem decodeFamily8_error_iff (w : Word) : (∃ e, decodeFamily8 w = .error e) ↔
    fieldN w ∈ [0x8#4, 0x9#4, 0xA#4, 0xB#4, 0xC#4, 0xD#4, 0xF#4] := by
  rw [nibble_unlisted_family8_iff]
  simp [decodeFamily8, ite_ok_error_iff]

theorem decodeFamilyE_error_iff (w : Word) :
    (∃ e, decodeFamilyE w = .error e) ↔ fieldNN w ≠ 0x9E ∧ fieldNN w ≠ 0xA1 := by
  simp [decodeFamilyE, ite_ok_error_iff]

theorem decodeFamilyF_error_iff (w : Word) : (∃ e, decodeFamilyF w = .error e) ↔
    fieldNN w ∉ [0x07#8, 0x0A#8, 0x15#8, 0x18#8, 0x1E#8, 0x29#8, 0x33#8, 0x55#8, 0x65#8] := by
  simp [decodeFamilyF, ite_ok_error_iff]

theorem decodeWord_error_iff (w : Word) : (∃ e, decodeWord w = .error e) ↔
    (fieldOP w = 0x0 ∧ w ≠ 0x00E0 ∧ w ≠ 0x00EE ∧ w ≠ 0x0000) ∨
    (fieldOP w = 0x8 ∧ fieldN w ∈ [0x8#4, 0x9#4, 0xA#4, 0xB#4, 0xC#4, 0xD#4, 0xF#4]) ∨
    (fieldOP w = 0xE ∧ fieldNN w ≠ 0x9E ∧ fieldNN w ≠ 0xA1) ∨
    (fieldOP w = 0xF ∧
      fieldNN w ∉ [0x07#8, 0x0A#8, 0x15#8, 0x18#8, 0x1E#8, 0x29#8, 0x33#8, 0x55#8, 0x65#8]) := by
  rw [← decodeFamily0_error_iff, ← decodeFamily8_error_iff, ← decodeFamilyE_error_iff, ← decodeFamilyF_error_iff]
  unfold decodeWord
  split
  case h_17 =>
    have h := nibble_listed (fieldOP w)
    simp only [List.mem_cons, List.not_mem_nil, or_false] at h
    tauto
  all_goals simp [*]

/-- A cycle that fetches an unknown word raises UnknownOpcode with PC advanced (40_cycle.md R93). -/
theorem step_of_unknown {s : State} (h : s.CanFetch) {e : DecodeError} (hw : decodeWord s.wordAtPc = .error e) :
    step s = .next ((advancePc s).enterFault .unknownOpcode s.wordAtPc.toNat) := by
  rw [step_of_canFetch h, runWord, hw]; rfl

/-- Settles O40: each family leaves its own words over, and the raise follows the advance of PC. -/
theorem unknownWordsFault : Obligations.UnknownWordsFault := by
  refine ⟨decodeWord_error_iff, fun s e h hw => ?_⟩
  rw [step_of_unknown h hw, ← BitVec.ofNat_toNat]
  exact ⟨faultsWith_enterFault .unknownOpcode _ (frame_setPc s _), _, rfl, rfl⟩

/-! ## The register skips (R77) -/

theorem skipIf_pc (c : Bool) (s : State) : (skipIf c s).pc = if c then s.pc + 2 else s.pc := by
  cases c <;> rfl

/-- Settles O7: the rows of the table are selected by OP alone, and the instruction reads no N. -/
theorem registerSkipsIgnoreLowNibble : Obligations.RegisterSkipsIgnoreLowNibble := by
  refine ⟨rowReads_of_row 6 rfl, rowReads_of_row 18 rfl, fun s x y n => ⟨?_, ?_⟩⟩
  · exact ⟨_, rfl, by simp [skipIf_pc], frame_skipIf _ s⟩
  · exact ⟨_, rfl, by simp [skipIf_pc], frame_skipIf _ s⟩

/-- Settles O47, by evaluation of the dispatcher on the eight words. -/
theorem specWordsDecode : Obligations.SpecWordsDecode := by
  unfold Obligations.SpecWordsDecode; decide

end Sys2Proof.Machine
end

section
/-! PROOFS. The cycle and ExecuteWord (40_cycle.md R92 to R99): a decoded word as a step, the tick, the halt, and what a fault
and a stopped block leave unchanged. -/

namespace Sys2Proof.Machine

/-! ## The step of a decoded word (R92, R93) -/

theorem step_of_decoded {s : State} (h : s.CanFetch) {i : Instr} (hw : decodeWord s.wordAtPc = .ok i) :
    step s = finishOutcome (exec i (beforeExec i s)) := by
  rw [step_of_canFetch h, runWord, hw]

/-- An operation that answers a next state is followed by the end of the cycle in that state. -/
theorem step_of_exec {s t : State} (h : s.CanFetch) {i : Instr} (hw : decodeWord s.wordAtPc = .ok i)
    (ht : exec i (beforeExec i s) = .next t) : step s = .next (finishCycle t) := by
  rw [step_of_decoded h hw, ht, finishOutcome_next]

/-- Settles O37, by the two cases of `beforeExec`. -/
theorem stepRunsDecodedInstruction : Obligations.StepRunsDecodedInstruction := by
  refine ⟨fun s i h hw => step_of_decoded h hw, fun s i hi => ?_, fun _ => rfl⟩
  rw [beforeExec_of_ne_halt hi]
  exact ⟨rfl, frame_setPc s _⟩

/-! ## The tick (R95, R96) -/

theorem exec_buz {i : Instr} {s t : State} (h : exec i s = .next t) : t.buz = s.buz :=
  exec_same h (p := .buzzer) (by cases i <;> simp [mayChange])

/-- Settles O38: the end of the cycle in a Running state is the tick, and no instruction may change BUZ. -/
theorem completedCycleTicks : Obligations.CompletedCycleTicks := by
  refine ⟨fun s i t h hw ht hrun => ?_, fun _ _ _ h => exec_buz h⟩
  rw [step_of_exec h hw ht, finishCycle_of_running hrun, nextWith_next]
  exact ⟨countDown_toNat t.dt, countDown_toNat t.st, tick_buzzerLevel t, frame_tick t⟩

/-! ## The halt sentinel (R92) -/

theorem decodeWord_zero : decodeWord 0 = .ok .halt := rowReads_of_row 34 rfl 0 rfl

theorem step_of_zero {s : State} (h : s.CanFetch) (hw : s.wordAtPc = 0) : step s = .next (s.setRun .halted) :=
  step_of_exec h (t := s.setRun .halted) (by rw [hw]; exact decodeWord_zero) rfl

/-- Settles O35: the sentinel changes RUN alone, and the block is stopped then. -/
theorem haltSentinelStops : Obligations.HaltSentinelStops := by
  refine ⟨rowReads_of_row 34 rfl, fun s => ⟨_, rfl, rfl, rfl, rfl, frame_setRun s .halted⟩, fun s h hw => ?_⟩
  have hstop : (s.setRun .halted).run ≠ .running := by simp
  exact ⟨_, step_of_zero h hw, rfl, rfl, rfl, frame_setRun s .halted, step_of_stopped hstop⟩

/-! ## A cycle that faults (R98) -/

theorem finishCycle_run (s : State) : (finishCycle s).run = s.run := by
  unfold finishCycle; split <;> rfl

/-- Only an instruction that may change RUN can leave a Running block Faulted. -/
theorem runState_mem_mayChange {i : Instr} {s t : State} (hs : s.run = .running) (h : exec i s = .next t)
    (ht : t.run = .faulted) : .runState ∈ mayChange i := by
  by_contra hn
  have hrun : t.run = s.run := (exec_same h hn).1
  rw [hrun, hs] at ht
  cases ht

/-- An instruction that may fault or halt writes neither timer. -/
theorem timers_not_mem_mayChange {i : Instr} (h : .runState ∈ mayChange i) :
    .delay ∉ mayChange i ∧ .sound ∉ mayChange i := by
  cases i <;> simp_all [mayChange]

/-- A first part that keeps PC and raises, or completes and is followed by what cannot raise: if the whole ends Faulted, PC is
as before. -/
theorem Exec.bind_pc_of_faulted {α β : Type} {codes : List (BitVec 4)} {w : Word} {r : Exec α} {f : α → State → Exec β}
    (hp : r.Ends fun u => u.pc = w) (hr : r.RaisesOnly codes)
    (hf : ∀ a u, u.run = .running → (f a u).Ends fun t => t.run = .running) :
    (r.bind f).Ends fun t => t.run = .faulted → t.pc = w := by
  cases r with
  | done a u => exact (hf a u hr).mono fun t hrun hfault => by rw [hrun] at hfault; cases hfault
  | raised u => exact fun _ => hp

/-- An instruction that raises leaves PC: those that write it raise before they do. -/
theorem exec_pc_of_faulted {i : Instr} {s t : State} (hs : s.run = .running) (h : exec i s = .next t)
    (ht : t.run = .faulted) : t.pc = s.pc := by
  have hmay := runState_mem_mayChange hs h ht
  have hfault : KeptByFault fun u => u.pc = s.pc := fun _ _ _ hu => hu
  by_cases hc : .counter ∈ mayChange i
  · cases i
    case ret =>
      refine Exec.outcome_eq_next h (Exec.bind_pc_of_faulted ?_ (pop_raisesOnly (.head []) hs) fun _ _ hu => hu) ht
      exact pop_ends hfault (fun _ _ _ hu => hu) rfl
    case call nnn =>
      refine Exec.outcome_eq_next h (Exec.bind_pc_of_faulted ?_ (push_raisesOnly (.head []) _ _ hs) fun _ _ hu => hu) ht
      exact push_ends hfault (fun _ _ _ hu => hu) _ _ rfl
    case skp x =>
      refine Exec.outcome_eq_next h (Exec.bind_pc_of_faulted (keyRead_ends hfault _ rfl)
        (keyRead_raisesOnly (.head []) _ hs) fun p u hu => ?_) ht
      exact (skipIf_run p u).trans hu
    case sknp x =>
      refine Exec.outcome_eq_next h (Exec.bind_pc_of_faulted (keyRead_ends hfault _ rfl)
        (keyRead_raisesOnly (.head []) _ hs) fun p u hu => ?_) ht
      exact (skipIf_run (!p) u).trans hu
    all_goals exact absurd (And.intro hc hmay) (by simp [mayChange])
  · exact exec_same h hc

/-- Settles O39, by the ways a cycle can go: a fetch fault and an unknown word raise outside any operation. -/
theorem faultedCycleEndsAtOnce : Obligations.FaultedCycleEndsAtOnce := by
  refine ⟨fun s i t h hw ht hfault => ?_, fun s t hrun h hfault => ?_⟩
  · rw [step_of_exec h hw ht, finishCycle_of_stopped (by rw [hfault]; decide)]
  · cases stepTo_of_step h with
    | stopped hstop => exact absurd hrun hstop
    | fetchFault _ hpc => exact ⟨rfl, rfl, rfl, fun hfit => absurd hpc (Nat.not_lt.2 hfit), fun _ => rfl⟩
    | unknown hf _ _ => exact ⟨rfl, rfl, rfl, fun _ => rfl, fun hpc => absurd hpc (Nat.not_lt.2 hf.2)⟩
    | halt _ _ => cases hfault
    | instr hf i _ _ u hu =>
      have hufault : u.run = .faulted := (finishCycle_run u).symm.trans hfault
      have hadv : (advancePc s).run = .running := hf.1
      have hbuz : u.buz = (advancePc s).buz := exec_buz hu
      obtain ⟨hdelay, hsound⟩ := timers_not_mem_mayChange (runState_mem_mayChange hadv hu hufault)
      rw [finishCycle_of_stopped (by rw [hufault]; decide)]
      exact ⟨exec_same hu hdelay, exec_same hu hsound, hbuz, fun _ => exec_pc_of_faulted hadv hu hufault,
        fun hpc => absurd hpc (Nat.not_lt.2 hf.2)⟩

/-! ## ExecuteWord (R99) -/

theorem executeWord_of_stopped {s : State} (h : s.run ≠ .running) (w : Word) : executeWord w s = .next s := by
  unfold executeWord executeWordWith; split
  · rfl
  · rfl
  · exact absurd ‹_› h

section
variable {s : State} (hs : s.run = .running) {w : Word}
include hs

theorem executeWord_of_decoded {i : Instr} (hw : decodeWord w = .ok i) (hi : i ≠ .halt) : executeWord w s = exec i s := by
  simp only [executeWord, executeWordWith, hs, hw]

theorem executeWord_of_unknown {e : DecodeError} (hw : decodeWord w = .error e) : executeWord w s = unknownWord w s := by
  simp only [executeWord, executeWordWith, hs, hw]

theorem executeWord_zero : executeWord 0 s = unknownWord 0 s := by
  simp only [executeWord, executeWordWith, hs, decodeWord_zero]

end

theorem unknownWord_faults (w : Word) (s : State) : FaultsWith (unknownWord w s) 1 (w.setWidth 32) [] [] s := by
  rw [← BitVec.ofNat_toNat]
  exact faultsWith_enterFault .unknownOpcode w.toNat (.refl [] [] s)

/-- Settles O42, by what the word decodes to. -/
theorem executeWordRunsInPlace : Obligations.ExecuteWordRunsInPlace := by
  refine ⟨fun s w hs => ⟨fun i hw hi => executeWord_of_decoded hs hw hi, fun e hw => ?_, ?_⟩,
    fun s w h => executeWord_of_stopped h w⟩
  · rw [executeWord_of_unknown hs hw]
    exact unknownWord_faults w s
  · rintro rfl
    rw [executeWord_zero hs]
    exact unknownWord_faults 0 s

/-! ## A stopped block (R97, R224) -/

theorem loadRom_of_stopped {s : State} (h : s.run ≠ .running) (rom : List Byte) : loadRom rom s = .next s := by
  unfold loadRom; split
  · rfl
  · rfl
  · exact absurd ‹_› h

theorem RunState.code_injective : Function.Injective RunState.code := fun r r' h => by
  have hc : RunState.ofCode r.code = RunState.ofCode r'.code := by rw [h]
  simpa using hc

/-- A DebugWrite of another element leaves what DebugRead gives for RUN, and so RUN itself. -/
theorem debugWrite_run_of_ne {e : Element} (he : e ≠ .run) (value : BitVec e.width) (s : State) :
    (debugWrite e value s).run = s.run :=
  RunState.code_injective (debugRead_debugWrite_ne he.symm value s)

/-- Each move that is neither Reset nor a DebugWrite leaves a stopped block, but for its input KEYS. -/
theorem hostMove_of_stopped {s : State} (h : s.run ≠ .running) {m : HostMove} (hr : m ≠ .reset)
    (hd : ∀ e value, m ≠ .debugWrite e value) : ∃ keys, hostMove m s = .next (setKeys keys s) := by
  cases m with
  | reset => exact absurd rfl hr
  | loadRom rom => exact ⟨s.keys, loadRom_of_stopped h rom⟩
  | cycle => exact ⟨s.keys, step_of_stopped h⟩
  | executeWord w => exact ⟨s.keys, executeWord_of_stopped h w⟩
  | debugWrite e value => exact absurd rfl (hd e value)
  | setKeys keys => exact ⟨keys, rfl⟩

/-- Settles O41, by `hostMove_of_stopped`. -/
theorem stoppedBlockStays : Obligations.StoppedBlockStays := by
  refine ⟨fun s h => ⟨step_of_stopped h, executeWord_of_stopped h⟩, fun m s t h ht hr hd => ?_,
    fun e value s he => debugWrite_run_of_ne he value s⟩
  obtain ⟨keys, hk⟩ := hostMove_of_stopped h hr hd
  rw [hk] at ht
  cases ht
  exact ⟨rfl, rfl, rfl⟩

end Sys2Proof.Machine
end

section
/-! PROOFS. Control flow (41_control_flow.md R110 to R116): return and call on each side of the stack's bounds, the jumps and
the immediate skips. -/

namespace Sys2Proof.Machine

/-! ## Return and call (R110, R112) -/

theorem exec_ret_of_pos {s : State} (h : 0 < s.sp.val) :
    exec .ret s = .next (State.setPc { s with sp := ⟨s.sp.val - 1, by have := s.sp.isLt; omega⟩ }
      (s.stk[s.sp.val - 1]'(by have := s.sp.isLt; omega))) := by
  change execRet s = _
  rw [execRet, pop_done s h]; rfl

theorem exec_ret_of_empty {s : State} (h : s.sp.val = 0) : exec .ret s = .next (s.enterFault .stackUnderflow 0xEE) := by
  change execRet s = _
  rw [execRet, pop_raised s h]; rfl

theorem exec_call_of_room (nnn : Addr12) {s : State} (h : s.sp.val < 16) :
    exec (.call nnn) s = .next (State.setPc
      { s with stk := s.stk.set s.sp.val s.pc h, sp := ⟨s.sp.val + 1, Nat.succ_lt_succ h⟩ } (wideAddr nnn)) := by
  change execCall nnn s = _
  rw [execCall, push_done _ _ s h]; rfl

theorem exec_call_of_full (nnn : Addr12) {s : State} (h : s.sp.val = 16) :
    exec (.call nnn) s = .next (s.enterFault .stackOverflow (encode (.call nnn)).toNat) := by
  change execCall nnn s = _
  rw [execCall, push_raised _ _ s h]; rfl

theorem frame_setStack_setPc (s : State) (stk : Vector Word 16) (sp : Fin 17) (w : Word) :
    OnlyChanges [] [.counter, .stack] s (State.setPc { s with stk := stk, sp := sp } w) :=
  ((frame_setStack s stk sp).mono (List.Subset.refl _) (by simp)).trans
    ((frame_setPc _ w).mono (List.Subset.refl _) (by simp))

/-- Settles O1, by the two sides of an empty stack. -/
theorem retPopsOrUnderflows : Obligations.RetPopsOrUnderflows := by
  refine ⟨rowReads_of_row 1 rfl, fun s h => ?_, fun s h => ?_⟩
  · rw [exec_ret_of_pos h, nextWith_next]
    exact ⟨Vector.getElem?_eq_getElem _, rfl, rfl, frame_setStack_setPc s s.stk _ _⟩
  · rw [exec_ret_of_empty h]
    exact faultsWith_enterFault .stackUnderflow 0xEE (.refl _ _ s)

/-- Settles O3, by the two sides of a full stack. FINFO is the word itself because the encoder gives a decoded word back. -/
theorem callPushesOrOverflows : Obligations.CallPushesOrOverflows := by
  have hrow : RowReads 0xF000 0x2000 fun w => .call (fieldNNN w) := rowReads_of_row 3 rfl
  refine ⟨hrow, fun s nnn h => ?_, fun s w hw h => ?_⟩
  · rw [exec_call_of_room nnn h, nextWith_next]
    exact ⟨wideAddr_toNat nnn, rfl, Vector.getElem?_set_self h, fun k hk => Vector.getElem?_set_ne h hk.symm,
      frame_setStack_setPc s _ _ _⟩
  · have hword : encode (.call (fieldNNN w)) = w := encode_of_decodeWord (hrow w hw)
    rw [exec_call_of_full _ h, hword, ← BitVec.ofNat_toNat]
    exact faultsWith_enterFault .stackOverflow w.toNat (.refl _ _ s)

/-! ## Jumps (R111, R113) -/

/-- Settles O2: the target is widened with zero bits. -/
theorem jpSetsCounter : Obligations.JpSetsCounter :=
  ⟨rowReads_of_row 2 rfl, fun s nnn => ⟨_, rfl, wideAddr_toNat nnn, frame_setPc s _⟩⟩

/-- Settles O4: a 12-bit address and a byte add up without a carry out of 16 bits. -/
theorem jpV0AddsRegisterZero : Obligations.JpV0AddsRegisterZero :=
  ⟨rowReads_of_row 20 rfl, fun s nnn => ⟨_, rfl, offsetTarget_toNat nnn (s.reg 0), frame_setPc s _⟩⟩

/-! ## Immediate skips (R115, R116) -/

/-- Settles O5, by what the skip primitive does to PC. -/
theorem seImmediateSkipsWhenEqual : Obligations.SeImmediateSkipsWhenEqual :=
  ⟨rowReads_of_row 4 rfl, fun s x nn => ⟨_, rfl, by simp [skipIf_pc], frame_skipIf _ s⟩⟩

/-- Settles O6, by what the skip primitive does to PC. -/
theorem sneImmediateSkipsWhenDifferent : Obligations.SneImmediateSkipsWhenDifferent :=
  ⟨rowReads_of_row 5 rfl, fun s x nn => ⟨_, rfl, by simp [skipIf_pc], frame_skipIf _ s⟩⟩

end Sys2Proof.Machine
end

section
/-! PROOFS. Loads, arithmetic, logic and the random byte (42_alu.md R131 to R144): the operations that write V[X] alone, and
those that write VF first. -/

namespace Sys2Proof.Machine

/-! ## One write of V[X] (R131 to R139) -/

/-- Settles O9, by the rule for one register write. -/
theorem ldImmediateLoads : Obligations.LdImmediateLoads :=
  ⟨rowReads_of_row 7 rfl, fun s x nn => ⟨_, rfl, s.setReg_reg_same x nn, frame_setReg s x nn⟩⟩

/-- Settles O10: the sum of two bytes is the sum modulo 256. -/
theorem addImmediateWraps : Obligations.AddImmediateWraps := by
  refine ⟨rowReads_of_row 8 rfl, fun s x nn => ⟨s.setReg x (s.reg x + nn), rfl, ?_, frame_setReg s x _⟩⟩
  rw [State.setReg_reg_same, BitVec.toNat_add]

/-- Settles O11, by the rule for one register write. -/
theorem ldRegisterCopies : Obligations.LdRegisterCopies :=
  ⟨rowReads_of_row 9 rfl, fun s x y => ⟨_, rfl, s.setReg_reg_same x (s.reg y), frame_setReg s x _⟩⟩

/-- Settles O12: the words' bits are taken one by one by the library's rule for each operation. -/
theorem logicIsBitwise : Obligations.LogicIsBitwise := by
  refine ⟨rowReads_of_row 10 rfl, rowReads_of_row 11 rfl, rowReads_of_row 12 rfl, fun s x y => ⟨?_, ?_, ?_⟩⟩
  · refine ⟨s.setReg x (s.reg x ||| s.reg y), rfl, frame_setReg s x _, fun k => ?_⟩
    rw [State.setReg_reg_same, BitVec.getLsbD_or]
  · refine ⟨s.setReg x (s.reg x &&& s.reg y), rfl, frame_setReg s x _, fun k => ?_⟩
    rw [State.setReg_reg_same, BitVec.getLsbD_and]
  · refine ⟨s.setReg x (s.reg x ^^^ s.reg y), rfl, frame_setReg s x _, fun k => ?_⟩
    rw [State.setReg_reg_same, BitVec.getLsbD_xor]

/-- Settles O13: the sum of two bytes is the sum modulo 256, and the one register written is V[X]. -/
theorem addRegistersHasNoCarry : Obligations.AddRegistersHasNoCarry := by
  refine ⟨rowReads_of_row 13 rfl, fun s x y => ⟨s.setReg x (s.reg x + s.reg y), rfl, ?_, frame_setReg s x _⟩⟩
  rw [State.setReg_reg_same, BitVec.toNat_add]

/-! ## VF first, then V[X] of the registers as that write left them (R130) -/

/-- VF takes the flag `f`, and V[X] then takes `op` of V[X] and V[Y], read after that write. -/
def State.flagThenWrite (s : State) (x y : Nibble) (f : Byte) (op : Byte → Byte → Byte) : State :=
  (s.setReg vf f).setReg x (op ((s.setReg vf f).reg x) ((s.setReg vf f).reg y))

section
variable (s : State) (x y : Nibble) (f : Byte) (op : Byte → Byte → Byte)

theorem exec_sub : exec (.sub x y) s =
    .next (s.flagThenWrite x y (greaterFlag (s.reg x) (s.reg y)) fun a b => a - b) := rfl

theorem exec_subn : exec (.subn x y) s =
    .next (s.flagThenWrite x y (greaterFlag (s.reg y) (s.reg x)) fun a b => b - a) := rfl

theorem exec_shr : exec (.shr x y) s = .next (s.flagThenWrite x y (shrFlag (s.reg x)) fun a _ => a >>> 1) := rfl

theorem exec_shl : exec (.shl x y) s = .next (s.flagThenWrite x y (shlFlag (s.reg x)) fun a _ => a <<< 1) := rfl

/-- Each operand is the flag where its field is F, and the old register elsewhere. -/
theorem State.flagThenWrite_reg : (s.flagThenWrite x y f op).reg x =
    op (if x = vf then f else s.reg x) (if y = vf then f else s.reg y) := by
  rw [State.flagThenWrite, State.setReg_reg_same, State.setReg_reg, State.setReg_reg]

/-- The flag stays in VF when V[X] is another register. -/
theorem State.flagThenWrite_vf {x : Nibble} (hx : x ≠ vf) : (s.flagThenWrite x y f op).reg vf = f := by
  rw [State.flagThenWrite, State.setReg_reg_ne _ _ hx.symm, State.setReg_reg_same]

theorem frame_flagThenWrite : OnlyChanges [x, 0xF] [] s (s.flagThenWrite x y f op) :=
  ((frame_setReg s vf f).mono (by simp) (List.Subset.refl _)).trans
    ((frame_setReg _ x _).mono (by simp) (List.Subset.refl _))

end

/-! ## Subtraction (R140, R142) -/

/-- The difference of two bytes is the difference modulo 256 (R138). -/
theorem byte_sub_toNat (a b : Byte) : (a - b).toNat = (a.toNat + 256 - b.toNat) % 256 := by
  have hb := b.isLt
  rw [BitVec.toNat_sub]
  omega

theorem greaterFlag_eq (a b : Byte) : greaterFlag a b = if b.toNat < a.toNat then 1 else 0 := by
  simp [greaterFlag, bool01]

/-- The four cases of the fields, for an operation whose result is `d` of its operands and which takes the flag from
itself to 0: an operand in VF is the flag. -/
theorem State.flagThenWrite_cases (s : State) (x y : Nibble) {f : Byte} {op : Byte → Byte → Byte} {d : Byte → Byte → Nat}
    (hd : ∀ a b, (op a b).toNat = d a b) (hzero : op f f = 0) :
    let t := s.flagThenWrite x y f op
    (x ≠ vf → y ≠ vf → t.reg vf = f ∧ (t.reg x).toNat = d (s.reg x) (s.reg y)) ∧
    (x = vf → y ≠ vf → (t.reg vf).toNat = d f (s.reg y)) ∧
    (x ≠ vf → y = vf → t.reg vf = f ∧ (t.reg x).toNat = d (s.reg x) f) ∧
    (x = vf → y = vf → t.reg vf = 0) ∧
    OnlyChanges [x, vf] [] s t := by
  have hreg := s.flagThenWrite_reg x y f op
  refine ⟨fun hx hy => ⟨s.flagThenWrite_vf y f op hx, ?_⟩, fun hx hy => ?_,
    fun hx hy => ⟨s.flagThenWrite_vf y f op hx, ?_⟩, fun hx hy => ?_, frame_flagThenWrite s x y f op⟩
  · rw [hreg, if_neg hx, if_neg hy, hd]
  · rw [← hx, hreg, if_pos hx, if_neg hy, hd]
  · rw [hreg, if_neg hx, if_pos hy, hd]
  · rw [← hx, hreg, if_pos hx, if_pos hy, hzero]

/-- Settles O14, by the four cases of the fields with the difference of V[X] and V[Y]. -/
theorem subFlagsThenSubtracts : Obligations.SubFlagsThenSubtracts := by
  refine ⟨rowReads_of_row 14 rfl, fun s x y f hf => ?_⟩
  rw [exec_sub, greaterFlag_eq, ← hf, nextWith_next]
  exact s.flagThenWrite_cases x y byte_sub_toNat (BitVec.sub_self f)

/-- Settles O16, by the four cases of the fields with the difference of V[Y] and V[X]. -/
theorem subnFlagsThenSubtracts : Obligations.SubnFlagsThenSubtracts := by
  refine ⟨rowReads_of_row 16 rfl, fun s x y f hf => ?_⟩
  rw [exec_subn, greaterFlag_eq, ← hf, nextWith_next]
  exact s.flagThenWrite_cases x y (fun a b => byte_sub_toNat b a) (BitVec.sub_self f)

/-! ## Shifts (R141, R143) -/

theorem shrFlag_toNat (a : Byte) : (shrFlag a).toNat = a.toNat % 2 := by
  rw [shrFlag, BitVec.toNat_and]
  exact Nat.and_one_is_mod _

theorem byte_ushiftRight_one_toNat (a : Byte) : (a >>> 1).toNat = a.toNat / 2 := by
  rw [BitVec.toNat_ushiftRight, Nat.shiftRight_eq_div_pow, pow_one]

/-- Bit 7 is set from 128 up. -/
theorem shlFlag_eq (a : Byte) : shlFlag a = if 128 ≤ a.toNat then 0x80 else 0x00 := by
  have hmsb : a.getLsbD 7 = decide (128 ≤ a.toNat) := BitVec.msb_eq_decide a
  change a &&& BitVec.twoPow 8 7 = _
  rw [BitVec.and_twoPow, hmsb]
  simp only [decide_eq_true_eq]
  rfl

theorem byte_shiftLeft_one_toNat (a : Byte) : (a <<< 1).toNat = a.toNat * 2 % 256 := by
  rw [BitVec.toNat_shiftLeft, Nat.shiftLeft_eq, pow_one]

/-- The flag of 8XY6 shifted right is 0, whichever bit it is. -/
theorem shrFlag_ushiftRight_one (a : Byte) : shrFlag a >>> 1 = 0 := by
  apply BitVec.eq_of_toNat_eq
  rw [byte_ushiftRight_one_toNat, shrFlag_toNat]
  exact Nat.div_eq_of_lt (Nat.mod_lt _ (by decide))

/-- The flag of 8XYE shifted left is 0: its one bit is lost. -/
theorem shlFlag_shiftLeft_one (a : Byte) : shlFlag a <<< 1 = 0 := by
  rw [shlFlag_eq]
  split <;> rfl

/-- Settles O15: with X = F it is the flag that is shifted. -/
theorem shrFlagsThenShifts : Obligations.ShrFlagsThenShifts := by
  refine ⟨rowReads_of_row 15 rfl, fun s x y => ?_⟩
  rw [exec_shr, nextWith_next]
  have hreg := s.flagThenWrite_reg x y (shrFlag (s.reg x)) fun a _ => a >>> 1
  refine ⟨fun hx => ⟨?_, ?_⟩, fun hx => ?_, frame_flagThenWrite s x y _ _⟩
  · rw [s.flagThenWrite_vf y _ _ hx, shrFlag_toNat]
  · rw [hreg, if_neg hx, byte_ushiftRight_one_toNat]
  · rw [← hx, hreg, if_pos hx, shrFlag_ushiftRight_one]

/-- Settles O17: with X = F it is the flag that is shifted. -/
theorem shlFlagsThenShifts : Obligations.ShlFlagsThenShifts := by
  refine ⟨rowReads_of_row 17 rfl, fun s x y => ?_⟩
  rw [exec_shl, nextWith_next]
  have hreg := s.flagThenWrite_reg x y (shlFlag (s.reg x)) fun a _ => a <<< 1
  refine ⟨fun hx => ⟨?_, ?_⟩, fun hx => ?_, frame_flagThenWrite s x y _ _⟩
  · rw [s.flagThenWrite_vf y _ _ hx, shlFlag_eq]
  · rw [hreg, if_neg hx, byte_shiftLeft_one_toNat]
  · rw [← hx, hreg, if_pos hx, shlFlag_shiftLeft_one]

/-! ## The random byte (R144) -/

theorem exec_rnd (x : Nibble) (nn : Byte) (s : State) :
    exec (.rnd x nn) s = .next (s.countSample.setReg x (Config.rndSample s.rndCount &&& nn)) := rfl

theorem frame_countSample_setReg (s : State) (x : Nibble) (b : Byte) :
    OnlyChanges [x] [.samples] s (s.countSample.setReg x b) :=
  ((frame_countSample s).mono (List.nil_subset _) (List.Subset.refl _)).trans
    ((frame_setReg _ x b).mono (List.Subset.refl _) (List.nil_subset _))

/-- Settles O18, whatever the sample is: the mask is taken bit by bit, and a zero and a full mask are those of the
library's rules. -/
theorem rndMasksOneSample : Obligations.RndMasksOneSample := by
  refine ⟨rowReads_of_row 21 rfl, fun s x nn => ?_, fun s x => ?_, fun s x => ?_⟩
  all_goals rw [exec_rnd, nextWith_next, State.setReg_reg_same]
  · exact ⟨fun k => BitVec.getLsbD_and, rfl, frame_countSample_setReg s x _⟩
  · exact BitVec.and_zero
  · exact BitVec.and_allOnes

end Sys2Proof.Machine
end

section
/-! PROOFS. The index register and the memory transfers (43_index_memory.md R160 to R167): the three loads of I, the digits of
FX33, and the register transfers, each on both sides of the last address. -/

namespace Sys2Proof.Machine

/-! ## The index register (R160 to R163) -/

/-- Settles O19: the address is widened with zero bits. -/
theorem ldIndexLoads : Obligations.LdIndexLoads :=
  ⟨rowReads_of_row 19 rfl, fun s nnn => ⟨_, rfl, wideAddr_toNat nnn, frame_setI s _⟩⟩

/-- Settles O21: five times a byte fits in 16 bits. -/
theorem ldFontAddressesGlyph : Obligations.LdFontAddressesGlyph :=
  ⟨rowReads_of_row 30 rfl, fun s x => ⟨_, rfl, glyphAddr_toNat (s.reg x), frame_setI s _⟩⟩

theorem exec_addIX_of_le {x : Nibble} {s : State} (h : s.i.toNat + (s.reg x).toNat ≤ 0xFFF) :
    exec (.addIX x) s = .next (s.setI (BitVec.ofNat 16 (s.i.toNat + (s.reg x).toNat))) := if_neg (Nat.not_lt.2 h)

theorem exec_addIX_of_lt {x : Nibble} {s : State} (h : 0xFFF < s.i.toNat + (s.reg x).toNat) :
    exec (.addIX x) s = .next (s.enterFault .indexOverflow (s.i.toNat + (s.reg x).toNat)) := if_pos h

/-- Settles O20, by the two sides of 0xFFF: a sum that is written fits in 16 bits. -/
theorem addIndexChecksRange : Obligations.AddIndexChecksRange := by
  refine ⟨rowReads_of_row 29 rfl, fun s x h => ?_, fun s x h => ?_⟩
  · rw [exec_addIX_of_le h, nextWith_next]
    refine ⟨?_, frame_setI s _⟩
    rw [State.setI_i, BitVec.toNat_ofNat, Nat.mod_eq_of_lt (by omega)]
  · rw [exec_addIX_of_lt h]
    exact faultsWith_enterFault .indexOverflow _ (.refl _ _ s)

/-! ## Bytes stored from I up -/

/-- The bytes from I up hold `bs`, and the other bytes are as before. -/
structure BytesStored (bs : List Byte) (s t : State) : Prop where
  stored : ∀ j b, bs[j]? = some b → t.byteAt (dataAddr s j) = b
  kept : ∀ c, (∀ j < bs.length, c ≠ dataAddr s j) → t.byteAt c = s.byteAt c

/-- Bytes whose addresses all exist are stored, wherever I is when there are none. -/
theorem storeBytes_stored {bs : List Byte} {s : State} (h : ∀ j < bs.length, dataAddr s j ≤ 0xFFF) :
    ∃ t, storeBytes bs (dataAddr s 0) s = .done () t ∧ s.MemOnly t ∧ BytesStored bs s t := by
  cases bs with
  | nil => exact ⟨s, rfl, .refl s, by simp, fun _ _ => rfl⟩
  | cons b bs =>
    have hlast := h bs.length (by simp)
    rw [dataAddr_eq] at hlast
    obtain ⟨t, ht, hm, hb⟩ := storeBytes_done (b :: bs) (dataAddr s 0) s (by rw [dataAddr_eq, List.length_cons]; omega)
    refine ⟨t, ht, hm, fun j d hj => ?_, fun c hc => ?_⟩
    · rw [hb, if_pos (by simp [dataAddr_eq]), show dataAddr s j - dataAddr s 0 = j by simp [dataAddr_eq], hj,
        Option.getD_some]
    · rw [hb]
      split
      · next hle =>
        have hout : (b :: bs).length ≤ c - dataAddr s 0 :=
          Nat.le_of_not_lt fun hlt => hc _ hlt (by simp only [dataAddr_eq] at hle ⊢; omega)
        rw [List.getElem?_eq_none hout, Option.getD_none]
      · rfl

/-- At the first address above 0xFFF the bytes below it are stored, and it is a MemOutOfRange. -/
theorem storeBytes_stored_raised {bs : List Byte} {s : State} {k : Nat} (hk : k < bs.length) (hbad : 0xFFF < dataAddr s k)
    (hok : ∀ j < k, dataAddr s j ≤ 0xFFF) : ∃ t,
    storeBytes bs (dataAddr s 0) s = .raised (t.enterFault .memOutOfRange (dataAddr s k)) ∧ s.MemOnly t ∧
      BytesStored (bs.take k) s t := by
  have hfits : 0x1000 - dataAddr s 0 = k ∧ max (dataAddr s 0) 0x1000 = dataAddr s k := by
    have := hok (k - 1)
    simp only [dataAddr_eq] at *
    omega
  obtain ⟨t, hdone, hraised⟩ := storeBytes_raised bs (dataAddr s 0) s (List.ne_nil_of_length_pos (by omega))
    (by rw [dataAddr_eq] at *; omega)
  rw [hfits.1] at hdone
  rw [hfits.2] at hraised
  obtain ⟨u, hu, hm, hb⟩ := storeBytes_stored (bs := bs.take k) (s := s) fun j hj => hok j (by simp at hj; omega)
  obtain rfl : t = u := (Exec.done.inj (hdone.symm.trans hu)).2
  exact ⟨t, hraised, hm, hb⟩

/-! ## FX33 (R164, R165) -/

theorem hundreds_toNat (b : Byte) : (hundreds b).toNat = b.toNat / 100 := by
  have := b.isLt
  rw [hundreds, BitVec.toNat_ofNat]; omega

theorem tens_toNat (b : Byte) : (tens b).toNat = b.toNat / 10 % 10 := by
  rw [tens, BitVec.toNat_ofNat]; omega

theorem units_toNat (b : Byte) : (units b).toNat = b.toNat % 10 := by
  rw [units, BitVec.toNat_ofNat]; omega

/-- The digits among the first `k` bytes of FX33, and every byte beside those. -/
theorem BytesStored.digits {v : Byte} {k : Nat} {s t : State} (h : BytesStored ((bcdBytes v).take k) s t) :
    (0 < k → (t.byteAt (dataAddr s 0)).toNat = v.toNat / 100) ∧
    (1 < k → (t.byteAt (dataAddr s 1)).toNat = v.toNat / 10 % 10) ∧
    (2 < k → (t.byteAt (dataAddr s 2)).toNat = v.toNat % 10) ∧
    ∀ a, (∀ j < k, a ≠ dataAddr s j) → t.byteAt a = s.byteAt a := by
  refine ⟨fun hlt => ?_, fun hlt => ?_, fun hlt => ?_, fun a ha => h.kept a fun j hj => ha j ?_⟩
  · rw [h.stored 0 (hundreds v) (by rw [List.getElem?_take_of_lt hlt]; rfl), hundreds_toNat]
  · rw [h.stored 1 (tens v) (by rw [List.getElem?_take_of_lt hlt]; rfl), tens_toNat]
  · rw [h.stored 2 (units v) (by rw [List.getElem?_take_of_lt hlt]; rfl), units_toNat]
  · rw [List.length_take] at hj
    omega

theorem exec_ldBX_stores {x : Nibble} {s : State} (h : dataAddr s 2 ≤ 0xFFF) :
    ∃ t, exec (.ldBX x) s = .next t ∧ s.MemOnly t ∧ BytesStored (bcdBytes (s.reg x)) s t := by
  obtain ⟨t, ht, hst⟩ := storeBytes_stored (bs := bcdBytes (s.reg x)) (s := s) fun j hj => by
    simp only [bcdBytes, List.length_cons, List.length_nil, dataAddr_eq] at *
    omega
  exact ⟨t, congrArg Exec.outcome ht, hst⟩

theorem exec_ldBX_raises {x : Nibble} {s : State} {k : Nat} (hk : k < 3) (hbad : 0xFFF < dataAddr s k)
    (hok : ∀ j < k, dataAddr s j ≤ 0xFFF) : ∃ t,
    exec (.ldBX x) s = .next (t.enterFault .memOutOfRange (dataAddr s k)) ∧ s.MemOnly t ∧
      BytesStored ((bcdBytes (s.reg x)).take k) s t := by
  obtain ⟨t, ht, hst⟩ := storeBytes_stored_raised (bs := bcdBytes (s.reg x)) hk hbad hok
  exact ⟨t, congrArg Exec.outcome ht, hst⟩

/-- Settles O22: the digits stored are all three, or those below the first bad address, and fault entry leaves them. -/
theorem ldBcdStoresDigits : Obligations.LdBcdStoresDigits := by
  refine ⟨rowReads_of_row 31 rfl, fun s x h => ?_, fun s x k hk hbad hok => ?_⟩
  · obtain ⟨t, ht, hm, hst⟩ := exec_ldBX_stores (x := x) h
    obtain ⟨h0, h1, h2, hkept⟩ := BytesStored.digits (k := 3) hst
    exact ⟨t, ht, h0 (by decide), h1 (by decide), h2 (by decide), hkept, hm.frame⟩
  · obtain ⟨t, ht, hm, hst⟩ := exec_ldBX_raises (x := x) hk hbad hok
    obtain ⟨h0, h1, -, hkept⟩ := hst.digits
    rw [ht, nextWith_next]
    exact ⟨faultsWith_enterFault .memOutOfRange _ hm.frame, h0, h1, hkept⟩

/-! ## FX55 (R166) -/

theorem exec_stRegs_raises {x : Nibble} {s : State} (h : 0xFFF < dataAddr s x.toNat) :
    exec (.stRegs x) s = .next (s.enterFault .bulkStoreOverflow (dataAddr s x.toNat)) := if_pos h

/-- Settles O23, by the check before the first write. -/
theorem storeRegistersWritesRange : Obligations.StoreRegistersWritesRange := by
  refine ⟨rowReads_of_row 32 rfl, fun s x h => ?_, fun s x h => ?_⟩
  · obtain ⟨t, ht, hm, hst⟩ := exec_stRegs_stores h
    refine ⟨t, ht, fun k (hk : k.toNat ≤ x.toNat) => ?_, fun a ha => ?_, hm.frame⟩
    · rw [hst.stored k.toNat (Nat.zero_le _) (by omega), BitVec.ofNat_toNat, BitVec.setWidth_eq]
    · exact hst.kept a fun j _ hj => ha j (by omega)
  · rw [exec_stRegs_raises h]
    exact faultsWith_enterFault .bulkStoreOverflow _ (.refl _ _ s)

/-! ## FX65 (R167) -/

theorem loadedRange_zero_iff {s t : State} {n : Nat} : LoadedRange s t 0 n ↔
    ∀ z : Nibble, t.reg z = if z.toNat < n then s.byteAt (dataAddr s z.toNat) else s.reg z := by
  simp [LoadedRange]

theorem exec_ldRegs_loads {x : Nibble} {s : State} (h : dataAddr s x.toNat ≤ 0xFFF) :
    ∃ t, exec (.ldRegs x) s = .next t ∧ s.RegsOnly t ∧ LoadedRange s t 0 (x.toNat + 1) := by
  have hx := x.isLt
  obtain ⟨t, ht, hl⟩ := loadRegs_done (x.toNat + 1) 0 s (by omega) (by rw [dataAddr_eq] at *; omega)
  exact ⟨t, congrArg Exec.outcome ht, hl⟩

theorem exec_ldRegs_raises {x : Nibble} {s : State} {k : Nat} (hk : k ≤ x.toNat) (hbad : 0xFFF < dataAddr s k)
    (hok : ∀ j < k, dataAddr s j ≤ 0xFFF) : ∃ t,
    exec (.ldRegs x) s = .next (t.enterFault .memOutOfRange (dataAddr s k)) ∧ s.RegsOnly t ∧ LoadedRange s t 0 k := by
  have hx := x.isLt
  obtain ⟨t, ht, hl⟩ := loadRegs_raised (x.toNat + 1) 0 k s (by omega) (by omega) (by rwa [Nat.zero_add])
    (by simpa using hok)
  rw [Nat.zero_add] at ht
  exact ⟨t, congrArg Exec.outcome ht, hl⟩

/-- Settles O24: the registers loaded are V0 to VX, or those below the first bad address, and fault entry leaves them. -/
theorem loadRegistersReadsRange : Obligations.LoadRegistersReadsRange := by
  refine ⟨rowReads_of_row 33 rfl, fun s x h => ?_, fun s x k hk hbad hok => ?_⟩
  · obtain ⟨t, ht, hr, hl⟩ := exec_ldRegs_loads h
    refine ⟨t, ht, fun k => ?_, hr.same⟩
    rw [loadedRange_zero_iff.1 hl k]
    simp only [Nat.lt_succ_iff, BitVec.le_def]
  · obtain ⟨t, ht, hr, hl⟩ := exec_ldRegs_raises hk hbad hok
    rw [ht, nextWith_next]
    exact ⟨rfl, rfl, rfl, loadedRange_zero_iff.1 hl, fun p hp =>
      Part.same_trans (hr.same p) ((frame_enterFault t _ _).2 p (by simpa using hp))⟩

end Sys2Proof.Machine
end

section
/-! PROOFS. The display (44_display.md R181 to R186): the clear, one pixel, and a sprite drawn whole, drawn up to its first
pixel outside the framebuffer, and drawn twice. -/

namespace Sys2Proof.Machine

/-! ## The clear (R185) -/

/-- Settles O25, by what the clear does to a pixel. -/
theorem clsClearsEveryPixel : Obligations.ClsClearsEveryPixel :=
  ⟨rowReads_of_row 0 rfl, fun s => ⟨_, rfl, s.clearDisplay_pixel, frame_clearDisplay s⟩⟩

/-! ## One pixel (R181) -/

/-- The FINFO of a PixelOutOfBounds: the two coordinates side by side, so that their OR is a sum. -/
theorem pixelInfo_eq {x : Nat} (y : Nat) (hx : x < 65536) : y <<< 16 ||| x = y * 65536 + x := by
  rw [← Nat.shiftLeft_add_eq_or_of_lt (i := 16) hx, Nat.shiftLeft_eq]

theorem drawPixel_invalid {x y bit : Nat} (s : State) (hx : x ≤ 63) (hy : y ≤ 31) (hb : 1 < bit) :
    drawPixel x y bit s = .raised (s.enterFault .invalidPixelValue bit) := by
  rw [drawPixel, if_neg (by omega), if_neg (by omega), if_neg (by omega), raise_eq]

/-- Settles O26, by the four ways a pixel is drawn. -/
theorem drawPixelXorsOneBit : Obligations.DrawPixelXorsOneBit := by
  refine ⟨fun s x y hx hy => ?_, fun s x y => drawPixel_clear s, fun s x y bit hx hy hb => ?_, fun s x y bit hx hout => ?_⟩
  · refine ⟨_, drawPixel_done s hx hy, (s.displayOnly_flipPixel x y).frame, fun p q => ?_⟩
    rw [s.flipPixel_pixel (by omega) (by omega)]
    split
    · next h => rw [h.1, h.2]
    · rfl
  · rw [drawPixel_invalid s hx hy hb]
    exact faultsWith_enterFault .invalidPixelValue bit (.refl _ _ s)
  · rw [drawPixel_raised bit s hout, pixelInfo_eq y hx]
    exact faultsWith_enterFault .pixelOutOfBounds _ (.refl _ _ s)

/-! ## Rows that complete, and two draws of the same rows (R182, R183, R186) -/

/-- A row that completes is drawn. -/
theorem drawn_of_drawRow {x0 y : Nat} {row : Byte} {count c : Nat} {col hit : Bool} {s t : State}
    (h : drawRow x0 y row count c col s = .done hit t) : Drawn (RowCovers x0 y row count c) col hit s t := by
  obtain ⟨hit', t', h', hd⟩ := drawRow_done x0 y row count c col s (drawRow_inside x0 y row count c col hit s t h)
  obtain ⟨rfl, rfl⟩ := Exec.done.inj (h.symm.trans h')
  exact hd

/-- Rows that complete are drawn. -/
theorem drawn_of_drawRows {x0 y : Nat} {rows : List Byte} {col hit : Bool} {s t : State}
    (h : drawRows x0 rows y col s = .done hit t) : Drawn (BytesCover x0 y rows) col hit s t := by
  obtain ⟨hit', t', h', hd⟩ := drawRows_done x0 rows y col s (drawRows_inside x0 rows y col hit s t h)
  obtain ⟨rfl, rfl⟩ := Exec.done.inj (h.symm.trans h')
  exact hd

section
variable {C : Nat → Nat → Prop} {hit hit' : Bool} {s t u : State}

theorem Drawn.hit_iff (h : Drawn C false hit s t) : hit = true ↔ ∃ p q, C p q ∧ s.pixel p q = true := by
  simpa using h.collision

/-- Inverted twice, a pixel is as it was. -/
theorem Drawn.twice_restores {b b' : Bool} (h : Drawn C b hit s t) (h' : Drawn C b' hit' t u) (p q : Nat) :
    u.pixel p q = s.pixel p q := by
  by_cases hc : C p q
  · rw [h'.inverted p q hc, h.inverted p q hc, Bool.not_not]
  · rw [h'.kept p q hc, h.kept p q hc]

/-- The pixels that the second draw finds set are those that the first one set. -/
theorem Drawn.twice_hit_iff {b : Bool} (h : Drawn C b hit s t) (h' : Drawn C false hit' t u) :
    hit' = true ↔ ∃ p q, C p q ∧ s.pixel p q = false := by
  rw [h'.hit_iff]
  refine exists_congr fun p => exists_congr fun q => and_congr_right fun hc => ?_
  rw [h.inverted p q hc, Bool.not_eq_true']

end

/-- Settles O28: a draw that completes is inside the framebuffer, so the second one completes too, whatever it draws on. -/
theorem spriteDrawIsSelfInverse : Obligations.SpriteDrawIsSelfInverse := by
  intro s x0 y0 bytes hit s' h
  have hfirst := drawn_of_drawRows h
  obtain ⟨hit', s'', h', hsecond⟩ := drawRows_done x0 bytes y0 false s' (drawRows_inside x0 bytes y0 false hit s s' h)
  exact ⟨hfirst.hit_iff, hit', s'', h', hfirst.twice_restores hsecond, hfirst.twice_hit_iff hsecond⟩

/-! ## The sprite at I -/

/-- The rows of the n-row sprite at I. -/
def State.spriteBytes (s : State) (n : Nat) : List Byte := (List.range n).map fun r => s.byteAt (dataAddr s r)

theorem State.spriteBytes_getElem? (s : State) {n r : Nat} (h : r < n) :
    (s.spriteBytes n)[r]? = some (s.byteAt (dataAddr s r)) := by
  simp [State.spriteBytes, h]

theorem State.take_spriteBytes (s : State) {n r : Nat} (h : r ≤ n) : (s.spriteBytes n).take r = s.spriteBytes r := by
  rw [State.spriteBytes, ← List.map_take, List.take_range, Nat.min_eq_left h, State.spriteBytes]

theorem bytesCover_eq_spriteCovers (s : State) (x0 y0 n : Nat) :
    BytesCover x0 y0 (s.spriteBytes n) = s.SpriteCovers x0 y0 n := by
  funext p q
  simpa [State.spriteBytes] using bytesCover_spriteBytes s x0 y0 n p q

theorem readSprite_spriteBytes {s : State} {n : Nat} (h : ∀ r < n, dataAddr s r ≤ 0xFFF) :
    readSprite n 0 s = .done (s.spriteBytes n) s := by
  simpa [State.spriteBytes] using readSprite_done n 0 s (by simpa using h)

/-- The pixel (p, q) lies under a set bit of the sprite at I that is drawn before position (r, c). -/
def State.CoversBefore (s : State) (x0 y0 r c p q : Nat) : Prop :=
  ∃ r' c', DrawnBefore r' c' r c ∧ c' < 8 ∧ s.SpriteSet r' c' ∧ p = x0 + c' ∧ q = y0 + r'

/-- The rows above `r`, then the columns of row `r` left of `c`. -/
theorem State.coversBefore_iff (s : State) (x0 y0 r : Nat) {c : Nat} (hc : c < 8) (p q : Nat) :
    s.CoversBefore x0 y0 r c p q ↔
      s.SpriteCovers x0 y0 r p q ∨ RowCovers x0 (y0 + r) (s.byteAt (dataAddr s r)) c 0 p q := by
  constructor
  · rintro ⟨r', c', hr | ⟨rfl, hlt⟩, hc', hset, hpq⟩
    · exact .inl ⟨r', c', hr, hc', hset, hpq⟩
    · exact .inr ⟨c', Nat.zero_le _, by omega, hset, hpq⟩
  · rintro (⟨r', c', hr, hc', hset, hpq⟩ | ⟨c', _, hlt, hset, hpq⟩)
    · exact ⟨r', c', .inl hr, hc', hset, hpq⟩
    · exact ⟨r, c', .inr ⟨rfl, by omega⟩, by omega, hset, hpq⟩

/-- With its first set bit outside the framebuffer at (r, c), a sprite is drawn up to that bit, which is a
PixelOutOfBounds. -/
theorem drawSprite_raised {s : State} {x0 y0 n r c : Nat} (hr : r < n) (hc : c < 8) (hset : s.SpriteSet r c)
    (hout : 63 < x0 + c ∨ 31 < y0 + r)
    (hin : ∀ r' c', DrawnBefore r' c' r c → c' < 8 → s.SpriteSet r' c' → x0 + c' ≤ 63 ∧ y0 + r' ≤ 31) :
    ∃ t hit, drawSprite x0 y0 (s.spriteBytes n) s =
        .raised (t.enterFault .pixelOutOfBounds ((y0 + r) <<< 16 ||| (x0 + c))) ∧
      Drawn (s.CoversBefore x0 y0 r c) false hit s t := by
  obtain ⟨t, _, u, hit, hraised, hrows, hrow⟩ := drawRows_raised x0 (s.spriteBytes n) y0 r c _ false s
    (s.spriteBytes_getElem? hr) hc hset hout fun r' c' row' hb hrow' hc' hset' => by
      rw [s.spriteBytes_getElem? (by unfold DrawnBefore at hb; omega), Option.some.injEq] at hrow'
      subst hrow'
      exact hin r' c' hb hc' hset'
  have habove := drawn_of_drawRows hrows
  rw [s.take_spriteBytes hr.le, bytesCover_eq_spriteCovers] at habove
  refine ⟨t, hit, hraised, habove.trans (drawn_of_drawRow hrow) (s.coversBefore_iff x0 y0 r hc) ?_⟩
  rintro p q ⟨r', _, hr', _, _, _, hq⟩ ⟨_, _, _, _, _, hq'⟩
  omega

/-! ## DXYN (R184) -/

/-- With its bytes in memory, DXYN draws the sprite and, if that completes, writes VF. -/
theorem exec_drw_of_bytes {x y n : Nibble} {s : State} (h : ∀ r < n.toNat, dataAddr s r ≤ 0xFFF) :
    exec (.drw x y n) s =
      ((drawSprite (s.reg x).toNat (s.reg y).toNat (s.spriteBytes n.toNat) s).bind fun hit t =>
        .done () (t.setReg vf (collisionFlag hit))).outcome := by
  change execDrw x y n s = _
  rw [execDrw, readSprite_spriteBytes h, Exec.bind_done]

theorem exec_drw_draws {x y n : Nibble} {s : State} (h : ∀ r < n.toNat, dataAddr s r ≤ 0xFFF)
    (hin : ∀ p q, s.SpriteCovers (s.reg x).toNat (s.reg y).toNat n.toNat p q → p ≤ 63 ∧ q ≤ 31) :
    ∃ hit t, exec (.drw x y n) s = .next (t.setReg vf (collisionFlag hit)) ∧
      Drawn (s.SpriteCovers (s.reg x).toNat (s.reg y).toNat n.toNat) false hit s t := by
  rw [← bytesCover_eq_spriteCovers] at hin ⊢
  obtain ⟨hit, t, ht, hd⟩ := drawRows_done _ _ _ false s hin
  refine ⟨hit, t, ?_, hd⟩
  rw [exec_drw_of_bytes h, drawSprite, ht, Exec.bind_done, Exec.outcome_done]

theorem exec_drw_memory_raises (x y : Nibble) {n : Nibble} {s : State} {r : Nat} (hr : r < n.toNat)
    (hbad : 0xFFF < dataAddr s r) (hok : ∀ j < r, dataAddr s j ≤ 0xFFF) :
    exec (.drw x y n) s = .next (s.enterFault .memOutOfRange (dataAddr s r)) := by
  have hread := readSprite_raised n.toNat 0 r s hr (by rwa [Nat.zero_add]) (by simpa using hok)
  rw [Nat.zero_add] at hread
  change execDrw x y n s = _
  rw [execDrw, hread, Exec.bind_raised, Exec.outcome_raised]

/-- The flag of a draw: 1 for a collision and 0 for none. -/
theorem collisionFlag_of_iff {hit : Bool} {P : Prop} (h : hit = true ↔ P) :
    (P → collisionFlag hit = 1) ∧ (¬ P → collisionFlag hit = 0) := by
  rw [← h]
  cases hit <;> simp [collisionFlag, bool01]

theorem frame_drawn_setReg {C : Nat → Nat → Prop} {b hit : Bool} {s t : State} (h : Drawn C b hit s t) (f : Byte) :
    OnlyChanges [vf] [.display] s (t.setReg vf f) :=
  (h.display.frame.mono (List.nil_subset _) (List.Subset.refl _)).trans
    ((frame_setReg t vf f).mono (List.Subset.refl _) (List.nil_subset _))

/-- Settles O27, by the three ways a draw ends: whole, at a missing byte before any pixel, and at the first set bit outside
the framebuffer with the pixels before it drawn. -/
theorem drwDrawsSpriteOrFaults : Obligations.DrwDrawsSpriteOrFaults := by
  refine ⟨rowReads_of_row 22 rfl, fun s x y n h hin => ?_, fun s x y n r hr hbad hok => ?_,
    fun s x y n r c h hr hc hset hout hin => ?_⟩
  · obtain ⟨hit, t, ht, hd⟩ := exec_drw_draws h hin
    obtain ⟨hone, hzero⟩ := collisionFlag_of_iff hd.hit_iff
    refine ⟨_, ht, hd.inverted, hd.kept, ?_, ?_, frame_drawn_setReg hd _⟩
    all_goals rw [State.setReg_reg_same]
    · exact hone
    · exact hzero
  · rw [exec_drw_memory_raises x y hr hbad hok]
    exact faultsWith_enterFault .memOutOfRange _ (.refl _ _ s)
  · obtain ⟨t, hit, ht, hd⟩ := drawSprite_raised hr hc hset hout hin
    have hx := (s.reg x).isLt
    rw [pixelInfo_eq _ (by omega)] at ht
    rw [exec_drw_of_bytes h, ht, Exec.bind_raised, Exec.outcome_raised, nextWith_next]
    exact ⟨faultsWith_enterFault .pixelOutOfBounds _ hd.display.frame, fun p q => ⟨hd.inverted p q, hd.kept p q⟩⟩

end Sys2Proof.Machine
end

section
/-! PROOFS. Timers and keys (45_timers_keys.md R201 to R208): the three timer moves and the tick that ends their cycle, the two
key skips, and the wait for a key with its re-poll. -/

namespace Sys2Proof.Machine

/-! ## The tick of a completed cycle -/

@[simp] theorem tick_reg (s : State) (z : Nibble) : (tick s).reg z = s.reg z := rfl
@[simp] theorem tick_st (s : State) : (tick s).st = countDown s.st := rfl

/-- BUZ after a tick: the sound timer had more than one count left. -/
theorem tick_buz_iff (s : State) : (tick s).buz = true ↔ 1 < s.st.toNat := by
  have hst : (countDown s.st).toNat = s.st.toNat - 1 := countDown_toNat s.st
  refine (tick_buzzerLevel s).trans ?_
  rw [tick_st, ne_eq, ← BitVec.toNat_inj, hst]
  change ¬ s.st.toNat - 1 = 0 ↔ 1 < s.st.toNat
  omega

/-- A cycle whose operation ends Running is that operation with PC advanced, and then the tick. -/
theorem step_of_completed {s t : State} (h : s.CanFetch) {i : Instr} (hw : decodeWord s.wordAtPc = .ok i) (hi : i ≠ .halt)
    (ht : exec i (advancePc s) = .next t) (hrun : t.run = .running) : step s = .next (tick t) := by
  rw [step_of_exec h hw (by rwa [beforeExec_of_ne_halt hi]), finishCycle_of_running hrun]

/-! ## The timers (R201 to R203) -/

/-- Settles O29: the write of DT's old value to V[X] comes before the tick, which leaves V[X]. -/
theorem ldFromDelayReadsBeforeTick : Obligations.LdFromDelayReadsBeforeTick := by
  refine ⟨rowReads_of_row 25 rfl, fun s x => ⟨_, rfl, s.setReg_reg_same x s.dt, frame_setReg s x s.dt⟩, fun s x h hw => ?_⟩
  have hstep : step s = .next (tick ((advancePc s).setReg x s.dt)) := step_of_completed h hw nofun rfl h.1
  exact ⟨_, hstep, (advancePc s).setReg_reg_same x s.dt, countDown_toNat s.dt⟩

/-- Settles O30: the tick counts down the DT just written, and ExecuteWord has none. -/
theorem ldToDelayIsTickedOnce : Obligations.LdToDelayIsTickedOnce := by
  refine ⟨rowReads_of_row 27 rfl, fun s x => ⟨_, rfl, rfl, frame_setDt s _⟩, fun s x h hw => ?_, fun s w x hs hw => ?_⟩
  · have hstep : step s = .next (tick ((advancePc s).setDt (s.reg x))) := step_of_completed h hw nofun rfl h.1
    exact ⟨_, hstep, countDown_toNat (s.reg x)⟩
  · exact ⟨_, executeWord_of_decoded hs hw nofun, rfl⟩

/-- Settles O31: the tick counts down the ST just written and sets BUZ from what is left, and ExecuteWord has none. -/
theorem ldToSoundIsTickedOnce : Obligations.LdToSoundIsTickedOnce := by
  refine ⟨rowReads_of_row 28 rfl, fun s x => ⟨_, rfl, rfl, frame_setSt s _⟩, fun s x h hw => ?_, fun s w x hs hw => ?_⟩
  · have hstep : step s = .next (tick ((advancePc s).setSt (s.reg x))) := step_of_completed h hw nofun rfl h.1
    exact ⟨_, hstep, countDown_toNat (s.reg x), tick_buz_iff _⟩
  · exact ⟨_, executeWord_of_decoded hs hw nofun, rfl, rfl⟩

/-! ## The key skips (R204 to R206) -/

section
variable {k : Nat} (f : Bool → Bool) (s : State)

/-- The level of a legal key, or its negation, decides a skip; `f` is `id` for EX9E and `not` for EXA1. -/
theorem keySkip_of_le (h : k ≤ 15) :
    ((keyRead k s).bind fun p t => .done () (skipIf (f p) t)).outcome = .next (skipIf (f (s.pressed k)) s) := by
  rw [keyRead_done s h, Exec.bind_done, Exec.outcome_done]

theorem keySkip_faults (b : Byte) (h : 15 < b.toNat) :
    FaultsWith ((keyRead b.toNat s).bind fun p t => .done () (skipIf (f p) t)).outcome 7 (b.setWidth 32) [] [] s := by
  rw [keyRead_raised s h, Exec.bind_raised, Exec.outcome_raised, ← BitVec.ofNat_toNat]
  exact faultsWith_enterFault .keyIndexOutOfRange b.toNat (.refl [] [] s)

end

theorem skipIf_not_pc (c : Bool) (s : State) : (skipIf (!c) s).pc = if c then s.pc else s.pc + 2 := by
  cases c <;> simp [skipIf_pc]

/-- Settles O32, by the two sides of the highest key. -/
theorem keySkipsReadOneKey : Obligations.KeySkipsReadOneKey := by
  refine ⟨rowReads_of_row 23 rfl, rowReads_of_row 24 rfl, fun s x h => ⟨?_, ?_⟩, fun s x h => ⟨?_, ?_⟩⟩
  · exact ⟨_, keySkip_of_le id s h, skipIf_pc _ s, frame_skipIf _ s⟩
  · exact ⟨_, keySkip_of_le not s h, skipIf_not_pc _ s, frame_skipIf _ s⟩
  · exact keySkip_faults id s (s.reg x) h
  · exact keySkip_faults not s (s.reg x) h

/-! ## The wait for a key (R207, R208) -/

theorem State.lowestPressed_eq_some_iff (s : State) (k : Nat) :
    s.lowestPressed = some k ↔ k < 16 ∧ s.keys.getLsbD k = true ∧ ∀ j < k, s.keys.getLsbD j = false := by
  simp [State.lowestPressed, State.pressed, List.find?_range_eq_some, and_left_comm]

theorem State.lowestPressed_eq_none_iff (s : State) : s.lowestPressed = none ↔ s.keys = 0 := by
  rw [State.lowestPressed, List.find?_range_eq_none]
  constructor
  · intro h
    exact BitVec.eq_of_getLsbD_eq fun k hk => by simpa [State.pressed] using h k hk
  · intro h k _
    simp [State.pressed, h]

section
variable (x : Nibble) {s : State}

theorem exec_ldXK_of_pressed {k : Nat} (h : s.lowestPressed = some k) :
    exec (.ldXK x) s = .next (s.setReg x (BitVec.ofNat 8 k)) := by
  change execLdXK x s = _
  rw [execLdXK, h]

theorem exec_ldXK_of_no_key (h : s.keys = 0) : exec (.ldXK x) s = .next (s.setPc (s.pc - 2)) := by
  change execLdXK x s = _
  rw [execLdXK, s.lowestPressed_eq_none_iff.2 h]

/-- The key that FX0A finds is the value of the register it is written to: a key index fits in a byte. -/
theorem setReg_key_toNat {k : Nat} (h : s.lowestPressed = some k) :
    ((s.setReg x (BitVec.ofNat 8 k)).reg x).toNat = k := by
  obtain ⟨hk, -, -⟩ := (s.lowestPressed_eq_some_iff k).1 h
  rw [State.setReg_reg_same, BitVec.toNat_ofNat, Nat.mod_eq_of_lt (by omega)]

end

/-- Settles O33, by what the search for the lowest key finds. -/
theorem keyWaitTakesLowestOrRewinds : Obligations.KeyWaitTakesLowestOrRewinds := by
  refine ⟨rowReads_of_row 26 rfl, fun s x k hk hkey hlow => ?_, fun s x h => ?_⟩
  · have hlowest : s.lowestPressed = some k := (s.lowestPressed_eq_some_iff k).2 ⟨hk, hkey, hlow⟩
    exact ⟨_, exec_ldXK_of_pressed x hlowest, setReg_key_toNat x hlowest, frame_setReg s x _⟩
  · exact ⟨_, exec_ldXK_of_no_key x h, rfl, frame_setPc s _⟩

/-- The rewind of FX0A undoes the advance of its cycle. -/
theorem advancePc_rewind (s : State) : (advancePc s).setPc ((advancePc s).pc - 2) = s := by
  change s.setPc (s.pc + 2 - 2) = s
  rw [BitVec.add_sub_cancel]; rfl

/-- Settles O34: with no key the operation gives back the state before the fetch, so that the cycle is one tick of it. -/
theorem keyWaitRepollTicks : Obligations.KeyWaitRepollTicks := by
  refine ⟨fun s x h hw hk => ?_, fun s x h hw hk => ?_⟩
  · have hexec : exec (.ldXK x) (advancePc s) = .next s := by
      rw [exec_ldXK_of_no_key x (show (advancePc s).keys = 0 from hk), advancePc_rewind]
    exact ⟨_, step_of_completed h hw nofun hexec h.1, countDown_toNat s.dt, countDown_toNat s.st, tick_buzzerLevel s,
      frame_tick s⟩
  · obtain ⟨k, hlowest⟩ := Option.ne_none_iff_exists'.1 (mt (advancePc s).lowestPressed_eq_none_iff.1 hk)
    obtain ⟨-, hkey, -⟩ := ((advancePc s).lowestPressed_eq_some_iff k).1 hlowest
    refine ⟨_, step_of_completed h hw nofun (exec_ldXK_of_pressed x hlowest) h.1, rfl, h.1, ?_⟩
    rw [tick_reg, setReg_key_toNat x hlowest]
    exact hkey

end Sys2Proof.Machine
end

section
/-! PROOFS. The faults an instruction can raise (60_exceptions.md R221). -/

namespace Sys2Proof.Machine

/-- Settles O51: the sentinel halts the block and raises nothing; any other instruction answers a next state, and `exec_run`
gives its RUN and its fault code. -/
theorem instructionsRaiseOnlyListedFaults : Obligations.InstructionsRaiseOnlyListedFaults := by
  intro i s hs
  by_cases hi : i = .halt
  · subst hi
    exact ⟨s.setRun .halted, rfl, .inr (.inl ⟨rfl, rfl⟩)⟩
  · obtain ⟨t, ht⟩ := exec_answers i s
    refine ⟨t, ht, ?_⟩
    rcases exec_run hi hs ht with hrun | hfault
    · exact .inl ⟨hrun, hi⟩
    · exact .inr (.inr hfault)

end Sys2Proof.Machine
end

section
/-! PROOFS. The ROM load (70_reset_and_hazards.md R253, R254): the bytes that fit, and the fault at the end of memory. -/

namespace Sys2Proof.Machine

theorem loadRom_of_running {s : State} (h : s.run = .running) (rom : List Byte) :
    loadRom rom s = (storeBytes rom Config.progBase s).outcome := by
  unfold loadRom; rw [h]

/-- The bytes from 0x200 up hold `rom`, and the other bytes are as before. -/
structure RomPlaced (rom : List Byte) (s t : State) : Prop where
  placed : ∀ k b, rom[k]? = some b → t.byteAt (0x200 + k) = b
  kept : ∀ a, a < 0x200 ∨ 0x200 + rom.length ≤ a → t.byteAt a = s.byteAt a

/-- A ROM that fits is stored whole. -/
theorem storeBytes_places_rom {rom : List Byte} (s : State) (h : rom.length ≤ 0xE00) :
    ∃ t, storeBytes rom Config.progBase s = .done () t ∧ s.MemOnly t ∧ RomPlaced rom s t := by
  have hbase : Config.progBase = 0x200 := rfl
  obtain ⟨t, ht, hm, hb⟩ := storeBytes_done rom Config.progBase s (by omega)
  refine ⟨t, ht, hm, fun k b hk => ?_, ?_⟩
  · rw [hb, hbase, if_pos (Nat.le_add_right _ _), Nat.add_sub_cancel_left, hk, Option.getD_some]
  · have hkept := storeBytes_kept rom Config.progBase s
    rw [ht] at hkept
    exact hkept

/-- A ROM that does not fit: its first 0xE00 bytes are stored as a ROM of their own, and then 0x1000 is a MemOutOfRange. -/
theorem storeBytes_raises_rom {rom : List Byte} (s : State) (h : 0xE00 < rom.length) :
    ∃ t, storeBytes rom Config.progBase s = .raised (t.enterFault .memOutOfRange 0x1000) ∧ s.MemOnly t ∧
      RomPlaced (rom.take 0xE00) s t := by
  obtain ⟨t, hdone, hraised⟩ := storeBytes_raised rom Config.progBase s (List.ne_nil_of_length_pos (by omega))
    (Nat.add_lt_add_left h Config.progBase)
  obtain ⟨u, hu, hm, hp⟩ := storeBytes_places_rom s (List.length_take_le 0xE00 rom)
  obtain rfl : t = u := (Exec.done.inj (hdone.symm.trans hu)).2
  exact ⟨t, hraised, hm, hp⟩

/-- Settles O49: a ROM is placed whole or up to the end of memory, and fault entry leaves its bytes. -/
theorem loadRomPlacesBytes : Obligations.LoadRomPlacesBytes := by
  refine ⟨fun s rom hs h => ?_, fun s rom hs h => ?_, fun s rom hs => loadRom_of_stopped hs rom⟩
  · obtain ⟨t, ht, hm, hp⟩ := storeBytes_places_rom s h
    rw [loadRom_of_running hs, ht]
    exact ⟨t, rfl, hp.placed, hp.kept, hm.frame⟩
  · obtain ⟨t, ht, hm, hp⟩ := storeBytes_raises_rom s h
    rw [loadRom_of_running hs, ht]
    exact ⟨faultsWith_enterFault .memOutOfRange 0x1000 hm.frame, _, rfl,
      fun k b hk hb => hp.placed k b (by rw [List.getElem?_take_of_lt hk, hb]), fun a ha => hp.kept a (.inl ha)⟩

end Sys2Proof.Machine
end
